-- ==== Sys2Proof/Word.lean ====
section
/-! DEFINITION. The least arithmetic the widths of the machine need: `clog2` (00_scope.md R16). -/

namespace Sys2Proof

/-- `clog2 m`, for `m >= 1`: the least `e` with `2^e >= m` (R16). -/
def clog2 (m : Nat) : Nat :=
  if m ≤ 1 then 0 else Nat.log2 (m - 1) + 1

end Sys2Proof
end

