-- ==== Sys2Proof/Config.lean ====
section
/-! DEFINITION. The configuration of an engine (00_scope.md R7 to R12): the capacity NMAX and the
number system NUM (42_numerics.md R115), the widths derived from them (R10), and the one free value
of the spec, the bits of a not-a-number (R128). The instances INT and F64 of NUM are in
Sys2Proof/Machine/Numerics.lean. -/

namespace Sys2Proof

/-- The number system of samples, coefficients and sums (R115): a record of widths, value sets,
encodings and the two operations of the datapath.

`encA` takes one more argument than in R115: the 53 bits from which the encoding of a not-a-number
is drawn (R128). A number system that has no not-a-number ignores it. -/
structure Num where
  /-- Width in bits of a sample encoding. -/
  sw : Nat
  /-- Width in bits of a coefficient encoding. -/
  cw : Nat
  /-- Width in bits of a sum encoding. -/
  aw : Nat
  /-- The values a sample can have. -/
  S : Type
  /-- The values a coefficient can have. -/
  C : Type
  /-- The values a sum can have. -/
  A : Type
  decS : BitVec sw → S
  decC : BitVec cw → C
  /-- The encoding held in `acc` and returned in `rsp_data`; the first argument is the draw of R128. -/
  encA : BitVec 53 → A → BitVec aw
  decA : BitVec aw → A
  /-- The encoding of the sample zero, what `CREATE` puts in `hist`. -/
  zeroS : BitVec sw
  /-- The sum of no terms, what `acc` starts from. -/
  zeroA : A
  /-- The product of one coefficient and one sample. -/
  mul : C → S → A
  /-- The sum of the running total and one product. -/
  add : A → A → A

/-- The configuration of one engine. There is no other parameter (R12). -/
structure Config where
  /-- The largest tap count a `CREATE` can establish (R7). -/
  nmax : Nat
  /-- The number system (R8). -/
  num : Num

/-- Width of a sample encoding (R8). -/
abbrev Config.sw (c : Config) : Nat := c.num.sw
/-- Width of a coefficient encoding (R8). -/
abbrev Config.cw (c : Config) : Nat := c.num.cw
/-- Width of the accumulator and of the output encoding (R8). -/
abbrev Config.aw (c : Config) : Nat := c.num.aw
/-- Width of an index into storage (R10). -/
abbrev Config.iw (c : Config) : Nat := max 1 (clog2 c.nmax)
/-- Width of a register that holds 0 to NMAX (R10). -/
abbrev Config.nw (c : Config) : Nat := clog2 (c.nmax + 1)
/-- Width of the data field of a command word (R10). -/
abbrev Config.dw (c : Config) : Nat := max c.sw (max c.cw c.nw)
/-- Width of a command word (R10). -/
abbrev Config.cmdw (c : Config) : Nat := 2 + c.dw
/-- Width of a response word (R10). -/
abbrev Config.rspw (c : Config) : Nat := 3 + c.aw

/-- The not-a-number bits a run of an F64 engine draws, one value per index (42_numerics.md R128):
sign and fraction of the encoding. It has no body, so nothing can be proved of any of its values
(log 11). The default engine, INT, never reads it. -/
opaque Config.freeNan : Nat → BitVec 53

end Sys2Proof
end

