-- ==== Sys2Proof/Syntax.lean ====
section
/-! DEFINITION. The command set FIRCMD-1 as syntax: one constructor per row of spec/opcode_table.json. -/

namespace Sys2Proof

/-- A header word, decoded (30_encoding.md R72, R73). The data field of a word is "read as an
unsigned number" (00_scope.md R13), so each constructor carries that number; `Instr.wf` says that
it fits the DW bits of the field (log 15). Payload words are not headers and have no constructor:
which words are payload is decided by position (R76). -/
inductive Instr where
  /-- `CREATE`, op 01: `n` is the whole data field, the count of payload words that follow. -/
  | create (n : Nat)
  /-- `PROC`, op 10: `x` is the whole data field; the sample is its low SW bits. -/
  | proc (x : Nat)
  /-- A reserved header, op 00; `d` is ignored (R77). -/
  | rsvd0 (d : Nat)
  /-- A reserved header, op 11; `d` is ignored (R77). -/
  | rsvd3 (d : Nat)
  deriving DecidableEq, Repr

/-- The number in the data field of the header. -/
def Instr.data : Instr → Nat
  | .create n => n
  | .proc x => x
  | .rsvd0 d => d
  | .rsvd3 d => d

end Sys2Proof
end

