-- ==== Sys2Proof/WellFormed.lean ====
section
/-! DEFINITION. Which instructions are the reading of some header word, and which configurations are
configurations of this hardware. -/

namespace Sys2Proof

/-- The number in the data field fits its DW bits (30_encoding.md R71, R73). -/
def Instr.wf (dw : Nat) (i : Instr) : Bool :=
  decide (i.data < 2 ^ dw)

/-- The conditions on every configuration: `NMAX >= 1` (R7) and positive widths (R115). -/
def Config.wf (c : Config) : Bool :=
  decide (1 ≤ c.nmax) && decide (1 ≤ c.sw) && decide (1 ≤ c.cw) && decide (1 ≤ c.aw)

/-- The conditions on the sizes of an INT configuration (R7, R9): with the last one met no sum the
engine forms can overflow (R121). -/
def Config.intWf (nmax sw cw aw : Nat) : Bool :=
  decide (1 ≤ nmax) && decide (1 ≤ sw) && decide (1 ≤ cw) && decide (sw + cw + clog2 nmax ≤ aw)

end Sys2Proof
end

