-- ==== Sys2Proof/Decode.lean ====
section
/-! DEFINITION. Command words (30_encoding.md): the two fields of a word, header decoding and
encoding, payload words, the length of a command. Everything is stated for a data field of any
width DW; `decodeTableWord` is the default configuration's decoder, whose words opcode_table.json
numbers. -/

namespace Sys2Proof

/-- `cmd_word[CMDW-1:DW]`, the operation (R71). -/
def opField (dw : Nat) (w : BitVec (2 + dw)) : BitVec 2 :=
  w.extractLsb' dw 2

/-- `cmd_word[DW-1:0]`, the data (R71). -/
def dataField (dw : Nat) (w : BitVec (2 + dw)) : BitVec dw :=
  w.extractLsb' 0 dw

/-- What a header word says (R72, R73, R77). Total: every word is the header of exactly one command
or a reserved header (R76). -/
def decodeHeader (dw : Nat) (w : BitVec (2 + dw)) : Instr :=
  let op := opField dw w
  let data := (dataField dw w).toNat
  if op = 1#2 then .create data
  else if op = 2#2 then .proc data
  else if op = 0#2 then .rsvd0 data
  else .rsvd3 data

/-- The operation field of an instruction's header (R72). -/
def Instr.op : Instr → BitVec 2
  | .create _ => 1#2
  | .proc _ => 2#2
  | .rsvd0 _ => 0#2
  | .rsvd3 _ => 3#2

/-- The header word of an instruction: `{op, data}` (R71, R72). -/
def encodeHeader (dw : Nat) (i : Instr) : BitVec (2 + dw) :=
  i.op ++ BitVec.ofNat dw i.data

/-- The coefficient encoding in a payload word, `data[CW-1:0]` (R74): the op field and the data bits
above CW are not looked at. -/
def payloadCoef (dw cw : Nat) (w : BitVec (2 + dw)) : BitVec cw :=
  (dataField dw w).setWidth cw

/-- The payload word the assembler writes for a coefficient encoding: `{00, zext_DW(c)}` (R84). -/
def encodePayload (dw cw : Nat) (c : BitVec cw) : BitVec (2 + dw) :=
  0#2 ++ c.setWidth dw

/-- How many payload words follow a header (R75): fixed by the header alone, whatever the outcome of
the command. -/
def Instr.payloadWords : Instr → Nat
  | .create n => n
  | .proc _ => 0
  | .rsvd0 _ => 0
  | .rsvd3 _ => 0

/-- The length of a command in words (R75). -/
def Instr.length (i : Instr) : Nat := 1 + i.payloadWords

/-- Why a number is not the header word of a command. -/
inductive DecodeError where
  /-- It has more bits than a command word, CMDW (R71). -/
  | widerThanACommandWord
  deriving DecidableEq, Repr

/-- The number of an instruction's bits, decoded as a header word of the configuration with data
width `dw`, or rejected by name. -/
def decodeNat (dw w : Nat) : Except DecodeError Instr :=
  if w < 2 ^ (2 + dw) then .ok (decodeHeader dw (BitVec.ofNat (2 + dw) w))
  else .error .widerThanACommandWord

/-- The instruction whose bits are `w`, numbered as opcode_table.json numbers them: bit 0 is the
least significant bit of the 18-bit header word (R13, R71). `nbits` is the table's width in whole
bytes; the bits of `w` above the 18 of a command word must be zero. -/
def decodeTableWord (_nbits w : Nat) : Option Instr :=
  match decodeNat 16 w with
  | .ok i => some i
  | .error _ => none

end Sys2Proof
end

