-- ==== Sys2Proof/Machine/Bits.lean ====
section
/-! DEFINITION. Bit patterns as numbers and indices modulo the tap count (00_scope.md R14, R15). -/

namespace Sys2Proof.Machine

/-- `signed_W(b)`: the integer a pattern stands for in two's complement (R14). -/
def signed (w : Nat) (b : BitVec w) : Int :=
  if 2 * b.toNat < 2 ^ w then (b.toNat : Int) else (b.toNat : Int) - 2 ^ w

/-- `twos_W(v)`: the pattern `v mod 2^W` (R14). -/
def twos (w : Nat) (v : Int) : BitVec w :=
  BitVec.ofNat w (v % 2 ^ w).toNat

/-- `a mod N`, never negative (R15). With `N = 0`, where the spec defines nothing (U1), it is `a`
itself (log 19): no run asks for it. -/
def modN (a : Int) (n : Nat) : Nat := (a % n).toNat

end Sys2Proof.Machine
end

