-- ==== Sys2Proof/Machine/Binary64.lean ====
section
/-! DEFINITION. IEEE 754 binary64 data and the two operations the F64 datapath uses (42_numerics.md
R125 to R128). PRESUMED: all of it comes from general knowledge, as the spec itself says (G1), log 10.

A finite datum is an integer multiple of 2^-1074, so a sum is exact in that unit and a product in
the unit 2^-2148; each result is rounded once, to nearest, ties to even. -/

namespace Sys2Proof.Machine

/-- How many magnitude patterns (exponent and fraction together) are finite: exponents 0 to 2046. -/
abbrev finiteMagnitudes : Nat := 2047 * 2 ^ 52

/-- A binary64 datum. The not-a-numbers are one value: which of them a result is, the spec leaves
open (R128), and the choice is made when the value is encoded. -/
inductive F64 where
  /-- A not-a-number. -/
  | nan
  /-- An infinity; `neg` is its sign bit. -/
  | inf (neg : Bool)
  /-- A finite datum: its sign bit and its magnitude pattern, bits 62:0. -/
  | fin (neg : Bool) (mag : Fin finiteMagnitudes)
  deriving DecidableEq, Repr

/-- A zero of the given sign. -/
def F64.zero (neg : Bool) : F64 := .fin neg ⟨0, by decide⟩

/-- The datum a 64-bit interchange encoding stands for (R125): bit 63 sign, bits 62:52 exponent,
bits 51:0 fraction. -/
def F64.decode (b : BitVec 64) : F64 :=
  let neg := b.getLsbD 63
  let mag := b.toNat % 2 ^ 63
  if h : mag < finiteMagnitudes then .fin neg ⟨mag, h⟩
  else if mag = finiteMagnitudes then .inf neg
  else .nan

/-- The not-a-number encoding drawn by 53 bits: sign and fraction, a zero fraction (which would be
an infinity) replaced by 1. Every not-a-number encoding is some draw's. -/
def F64.nanBits (draw : BitVec 53) : BitVec 64 :=
  let frac := draw.toNat % 2 ^ 52
  BitVec.ofNat 64 (draw.toNat / 2 ^ 52 * 2 ^ 63 + finiteMagnitudes + if frac = 0 then 1 else frac)

/-- The encoding of a datum (R125); of a not-a-number, one drawn freely (R128). -/
def F64.encode (draw : BitVec 53) : F64 → BitVec 64
  | .nan => F64.nanBits draw
  | .inf neg => BitVec.ofNat 64 (neg.toNat * 2 ^ 63 + finiteMagnitudes)
  | .fin neg mag => BitVec.ofNat 64 (neg.toNat * 2 ^ 63 + mag.val)

/-- The magnitude of a finite datum, counted in units of 2^-1074: a subnormal has no hidden bit. -/
def unitsOf (mag : Nat) : Nat :=
  if mag < 2 ^ 52 then mag else (2 ^ 52 + mag % 2 ^ 52) * 2 ^ (mag / 2 ^ 52 - 1)

/-- `a / 2^k` rounded to the nearest integer, ties to even. -/
def roundHalfEven (a k : Nat) : Nat :=
  let q := a / 2 ^ k
  let twice := 2 * (a % 2 ^ k)
  if twice < 2 ^ k then q
  else if 2 ^ k < twice then q + 1
  else q + q % 2

/-- The binary64 datum nearest to the magnitude `m * 2^-(1074 + k)`, ties to even, with gradual
underflow and overflow to infinity (R126). `u` is the exponent of the result's last place in units
of 2^-1074; the hidden bit of the 53-bit result adds the one that the exponent field needs. -/
def roundToF64 (neg : Bool) (m k : Nat) : F64 :=
  let u := Nat.log2 m - (k + 52)
  let mag := u * 2 ^ 52 + roundHalfEven m (k + u)
  if h : mag < finiteMagnitudes then .fin neg ⟨mag, h⟩ else .inf neg

/-- IEEE 754 multiplication, rounded once (R126, R127). An infinity times a finite number that is not
zero is an infinity, whichever of the two is the coefficient. R129 infers from R124 to R128 that an
infinite coefficient makes every output of P1's stream a not-a-number, "because that coefficient
meets a zero sample"; at the one output where it meets 1.0 the inference and the rules it is drawn
from differ, and the model follows the rules (DESIGN CHOICE, log 21). -/
def F64.mul : F64 → F64 → F64
  | .nan, _ => .nan
  | _, .nan => .nan
  | .inf a, .inf b => .inf (a ^^ b)
  | .inf a, .fin b m => if m.val = 0 then .nan else .inf (a ^^ b)
  | .fin a m, .inf b => if m.val = 0 then .nan else .inf (a ^^ b)
  | .fin a m, .fin b n => roundToF64 (a ^^ b) (unitsOf m.val * unitsOf n.val) 1074

/-- The signed magnitude of a finite datum in units of 2^-1074. -/
def signedUnits (neg : Bool) (mag : Nat) : Int :=
  if neg then -(unitsOf mag : Int) else unitsOf mag

/-- IEEE 754 addition, rounded once (R126, R127). An exact zero sum is `+0` unless both operands
are negative zeros. -/
def F64.add : F64 → F64 → F64
  | .nan, _ => .nan
  | _, .nan => .nan
  | .inf a, .inf b => if a = b then .inf a else .nan
  | .inf a, .fin _ _ => .inf a
  | .fin _ _, .inf b => .inf b
  | .fin a m, .fin b n =>
    let s := signedUnits a m.val + signedUnits b n.val
    if s = 0 then F64.zero (a && b) else roundToF64 (decide (s < 0)) s.natAbs 0

end Sys2Proof.Machine
end

