-- ==== Sys2Proof/Machine/Numerics.lean ====
section
/-! DEFINITION. The two instances of the number system (42_numerics.md): INT (R117 to R122), the
default, and F64 (R125 to R128), and the configurations of this hardware built on them. -/

namespace Sys2Proof

open Sys2Proof.Machine

/-- `INT(SW, CW, AW)`: two's complement samples and coefficients, exact products and sums (R117 to
R120, R122). The value sets are written as all integers; the engine forms only values in the ranges
of R117 (R121), and on those `encA` is `twos_AW` and loses nothing (log 13). -/
def Num.int (sw cw aw : Nat) : Num where
  sw := sw
  cw := cw
  aw := aw
  S := Int
  C := Int
  A := Int
  decS := signed sw
  decC := signed cw
  encA := fun _ a => twos aw a
  decA := signed aw
  zeroS := 0#sw
  zeroA := 0
  mul := fun c s => c * s
  add := fun a p => a + p

/-- `F64`: binary64 throughout (R125 to R128). PRESUMED, log 10. -/
def Num.f64 : Num where
  sw := 64
  cw := 64
  aw := 64
  S := F64
  C := F64
  A := F64
  decS := F64.decode
  decC := F64.decode
  encA := F64.encode
  decA := F64.decode
  zeroS := 0#64
  zeroA := F64.zero false
  mul := F64.mul
  add := F64.add

/-- An INT configuration of the given sizes. -/
def Config.int (nmax sw cw aw : Nat) : Config where
  nmax := nmax
  num := Num.int sw cw aw

/-- An INT configuration, refused if its sizes are not those of this hardware (R9). -/
def Config.int? (nmax sw cw aw : Nat) : Option Config :=
  if Config.intWf nmax sw cw aw then some (Config.int nmax sw cw aw) else none

/-- An F64 configuration. -/
def Config.f64 (nmax : Nat) : Config where
  nmax := nmax
  num := Num.f64

/-- The default configuration: INT with SW = CW = 16, AW = 40 and NMAX = 256 (R7, R8). -/
@[reducible] def Config.default : Config := Config.int 256 16 16 40

end Sys2Proof
end

