-- ==== Sys2Proof/Machine/State.lean ====
section
/-! DEFINITION. The state of the machine: the engine's thirteen elements (10_state.md R20) for any
configuration, and, around the default engine, the host's side, which the step must find in the
state because it takes no input (log 5). Reset values (R165, R166; logs 1, 2). -/

namespace Sys2Proof.Machine

/-- The sequencer register (R26). Its binary encoding is not observable (U9, log 18). -/
inductive Phase where
  /-- Waiting for a header word. -/
  | idle
  /-- An in-range `CREATE` is taking its payload. -/
  | load
  /-- An over-capacity `CREATE` is dropping its payload. -/
  | discard
  /-- A `PROC` is about to write its sample. -/
  | write
  /-- A `PROC` is accumulating. -/
  | mac
  /-- A `PROC` is about to advance the cursor. -/
  | adv
  /-- A response is waiting for the host. -/
  | resp
  deriving DecidableEq, Repr

/-- The two address spaces (R50). -/
inductive Space where
  | coef
  | hist
  deriving DecidableEq, Repr

/-- Why the machine stops. The four error statuses of the engine are no faults (R158): they are
responses, with a next state. -/
inductive Fault where
  /-- Raised by a MAC step that reads a cell no command has written: its value is unspecified (R166,
  R158, U2). Safe: the hardware goes on with some value. No run from reset meets it (R167). -/
  | unwrittenCell (space : Space) (index : Nat)
  /-- Raised by a load, write or MAC step that forms an index outside `0..NMAX-1`, where no cell
  exists (R50). Safe. No run from reset meets it (R60, log 12). -/
  | noSuchCell (space : Space) (index : Nat)
  deriving DecidableEq, Repr

/-- Why an instruction has no meaning. The engine itself refuses nothing (R158). -/
inductive Refusal where
  /-- Raised by an arm of `exec` whose instruction has no meaning yet. Safe. No arm raises it. -/
  | notModelled (mnemonic : String)
  deriving DecidableEq, Repr

/-- A memory of cells of `w` bits (R50): the cells that hold a value, by rising index. A cell not
listed holds no value (U2, log 2). -/
abbrev Memory (w : Nat) := List (Nat × BitVec w)

/-- The complete state of one engine of configuration `c` (R20). -/
structure Engine (c : Config) where
  /-- The coefficient memory `COEF` (R21). -/
  coef : Memory c.cw
  /-- The history memory `HIST`, the circular delay line (R22). -/
  hist : Memory c.sw
  /-- The write cursor (R23). -/
  wc : BitVec c.iw
  /-- The tap count (R24). -/
  N : BitVec c.nw
  /-- A filter exists (R25). -/
  valid : Bool
  /-- The sequencer (R26). -/
  phase : Phase
  /-- Coefficient words taken, or taps accumulated, so far (R27). -/
  j : BitVec c.nw
  /-- Payload words still to drop (R28). -/
  rem : BitVec c.dw
  /-- The sample taken from a `PROC` header (R29). -/
  xin : BitVec c.sw
  /-- The partial sum (R30). -/
  acc : BitVec c.aw
  /-- A response is offered (R31). -/
  rspValid : Bool
  /-- The outcome of the command (R31). -/
  rspStatus : BitVec 3
  /-- The output sample, or zero (R31). -/
  rspData : BitVec c.aw
  deriving DecidableEq, Repr

/-- What the host of the default engine does next at the ports (R177). An offer is held until it is
taken up (R43, log 6). -/
inductive HostMove where
  /-- Assert `rst` at one edge (R165). -/
  | reset
  /-- Offer this command word until the engine accepts it (R43). -/
  | word (w : BitVec Config.default.cmdw)
  /-- Assert `rsp_ready` until a response is transferred (R43). -/
  | take
  /-- Offer nothing for one step (R177: the host may pause). -/
  | pause
  deriving DecidableEq, Repr

/-- The state of the machine: the engine (R20) and, as the model's own fields (log 5), its host. -/
structure State where
  /-- The engine, in the default configuration (log 9). -/
  engine : Engine Config.default
  /-- What the host will do from now on. Not state of the engine (R36). -/
  script : List HostMove
  /-- The response words the host has taken, oldest first: the observation of a run (R176). -/
  taken : List (BitVec Config.default.rspw)
  deriving DecidableEq, Repr

/-- The engine right after reset: `valid = 0`, `phase = IDLE`, `rsp_valid = 0` (R165). The spec
leaves every other element unspecified (R166): a memory cell holds no value (log 2); a register
holds zero, DESIGN CHOICE (log 1). -/
def Engine.reset (c : Config) : Engine c where
  coef := []
  hist := []
  wc := 0
  N := 0
  valid := false
  phase := .idle
  j := 0
  rem := 0
  xin := 0
  acc := 0
  rspValid := false
  rspStatus := 0
  rspData := 0

/-- The machine right after reset (R165, R168), the host having nothing planned (log 14). -/
def State.reset : State where
  engine := Engine.reset Config.default
  script := []
  taken := []

end Sys2Proof.Machine
end

