-- ==== Sys2Proof/Machine/Flags.lean ====
section
/-! DEFINITION. Status codes and the one-bit conditions of the ports. The arithmetic sets no flag
and there is no sticky error flag (10_state.md R40). -/

namespace Sys2Proof.Machine

/-- The outcome of a command (60_exceptions.md R140). Codes 5 to 7 are never produced (U10). -/
inductive Status where
  | ok
  | invalidArgument
  | capacity
  | noFilter
  | illegalCommand
  deriving DecidableEq, Repr

/-- `code(E)`, the status field of a response (R140). -/
def Status.code : Status → BitVec 3
  | .ok => 0#3
  | .invalidArgument => 1#3
  | .capacity => 2#3
  | .noFilter => 3#3
  | .illegalCommand => 4#3

/-- `cmd_ready`, a function of the phase alone (R44). -/
def Phase.cmdReady : Phase → Bool
  | .idle => true
  | .load => true
  | .discard => true
  | .write => false
  | .mac => false
  | .adv => false
  | .resp => false

/-- The phases in which the engine has a step of its own (R178). -/
def Phase.own : Phase → Bool
  | .idle => false
  | .load => false
  | .discard => false
  | .write => true
  | .mac => true
  | .adv => true
  | .resp => false

end Sys2Proof.Machine
end

