-- ==== Sys2Proof/Machine/Ops.lean ====
section
/-! DEFINITION. The named operations: reading and writing a memory cell, loading the response
register, taking an error, taking the response, reset. -/

namespace Sys2Proof.Machine

variable {c : Config} {w : Nat}

/-- The value of a cell, none if no command has written it. -/
def Memory.read : Memory w → Nat → Option (BitVec w)
  | [], _ => none
  | (a, v) :: m, i => if i = a then some v else Memory.read m i

/-- Write one whole cell, keeping the indices rising. -/
def Memory.write : Memory w → Nat → BitVec w → Memory w
  | [], i, v => [(i, v)]
  | (a, u) :: m, i, v =>
    if i < a then (i, v) :: (a, u) :: m
    else if i = a then (i, v) :: m
    else (a, u) :: Memory.write m i v

/-- Forget every cell at index `n` and above. -/
def Memory.keepBelow (n : Nat) (m : Memory w) : Memory w :=
  m.filter (fun cell => decide (cell.1 < n))

/-- The canonical form: indices strictly rising. (An unlisted cell holds no value, so no entry can
equal what an unlisted cell reads as.) -/
def Memory.wf : Memory w → Bool
  | [] => true
  | [_] => true
  | (a, _) :: (b, v) :: m => decide (a < b) && Memory.wf ((b, v) :: m)

/-- Read one whole cell of the space (R50): a cell that does not exist, or holds no value, is a
fault by name. -/
def readCell (space : Space) (nmax : Nat) (m : Memory w) (i : Nat) : Except Fault (BitVec w) :=
  if i < nmax then
    match m.read i with
    | some v => .ok v
    | none => .error (.unwrittenCell space i)
  else .error (.noSuchCell space i)

/-- Write one whole cell of the space (R50). -/
def writeCell (space : Space) (nmax : Nat) (m : Memory w) (i : Nat) (v : BitVec w) :
    Except Fault (Memory w) :=
  if i < nmax then .ok (m.write i v) else .error (.noSuchCell space i)

/-- `respond(s, d)` (30_encoding.md R86): the last action of the last step of every command. -/
def Engine.respond (s : Status) (d : BitVec c.aw) (e : Engine c) : Engine c :=
  { e with rspStatus := s.code, rspData := d, rspValid := true, phase := .resp }

/-- `raise E` (60_exceptions.md R146): taking an error. The command ends with the error's code and
data 0, and nothing else is written: nothing is saved, and control goes to phase RESP (R149). -/
def Engine.raiseError (s : Status) (e : Engine c) : Engine c :=
  e.respond s 0

/-- Taking the response (30_encoding.md R87): the end of every command, an error's included. There
is nothing to restore (R150). The two fields of the response keep their values, which are unspecified
from here on (log 20). -/
def Engine.endResponse (e : Engine c) : Engine c :=
  { e with rspValid := false, phase := .idle }

/-- A rising edge with `rst = 1` (70_reset_and_hazards.md R165): `valid`, `phase` and `rsp_valid` are
set, and every other element becomes unspecified again (R166), so the state after it is the reset
state (log 3). -/
def Engine.resetEdge (_e : Engine c) : Engine c := Engine.reset c

/-- A step that ended in an engine state or a fault, in the state around the engine. -/
def State.withEngine (s : State) (r : Except Fault (Engine Config.default)) :
    Host.Outcome State Fault Refusal :=
  match r with
  | .ok e => .next { s with engine := e }
  | .error f => .fault f

end Sys2Proof.Machine
end

