-- ==== Sys2Proof/Machine/Operands.lean ====
section
/-! DEFINITION. Operand forms: what a command takes from its words, the indices it forms, and the
response word it gives back. -/

namespace Sys2Proof.Machine

variable {c : Config}

/-- The sample of a `PROC` header, `data[SW-1:0]` (30_encoding.md R73). -/
def sampleOperand (c : Config) (data : Nat) : BitVec c.sw :=
  BitVec.ofNat c.sw data

/-- The coefficient of a payload word, `data[CW-1:0]` (R74). -/
def coefOperand (c : Config) (w : BitVec c.cmdw) : BitVec c.cw :=
  payloadCoef c.dw c.cw w

/-- The cell that holds the sample of age `j`, `(wc - j) mod N` (20_memory.md R58). -/
def readIndex (wc j N : Nat) : Nat :=
  modN ((wc : Int) - j) N

/-- The cursor after a `PROC`, `(wc + 1) mod N` (41_process.md R104). -/
def nextCursor (wc N : Nat) : Nat :=
  modN ((wc : Int) + 1) N

/-- The wrapping read pointer (20_memory.md R59): after each MAC step, `N - 1` if it was 0 and one
less otherwise. -/
def nextPointer (rp N : Nat) : Nat :=
  if rp = 0 then N - 1 else rp - 1

/-- The read pointer at MAC step `j`: set to `wc` at the write step and stepped `j` times (R59). -/
def readPointer (wc N : Nat) : Nat → Nat
  | 0 => wc
  | j + 1 => nextPointer (readPointer wc N j) N

/-- The response word `{status, data}` (30_encoding.md R79). -/
def responseWord (status : BitVec 3) (data : BitVec c.aw) : BitVec c.rspw :=
  status ++ data

/-- `rsp_word`, what the response port carries (R42, R79). -/
def Engine.rspWord (e : Engine c) : BitVec c.rspw :=
  responseWord e.rspStatus e.rspData

end Sys2Proof.Machine
end

