-- ==== Sys2Proof/Machine/Create.lean ====
section
/-! DEFINITION. The steps of `CREATE` (40_create.md R91 to R95) and the meaning of its header. -/

namespace Sys2Proof.Machine

variable {c : Config}

/-- The header step (30_encoding.md R82): an empty sequence is an error (R95); a count above
capacity starts dropping its payload and touches nothing else (R94); a count in range gives up the
old filter and starts loading (R91). -/
def Engine.createHeader (n : Nat) (e : Engine c) : Engine c :=
  if n = 0 then e.raiseError .invalidArgument
  else if c.nmax < n then { e with rem := BitVec.ofNat c.dw n, phase := .discard }
  else { e with valid := false, N := BitVec.ofNat c.nw n, j := 0, phase := .load }

/-- Completion (R93): the filter exists from here on. The cells at `N` and above are no part of it
and hold no value any more (R90: "unspecified, never read"; log 4). -/
def Engine.createDone (e : Engine c) : Engine c :=
  Engine.respond .ok 0
    { e with
      coef := e.coef.keepBelow e.N.toNat
      hist := e.hist.keepBelow e.N.toNat
      wc := 0
      valid := true }

/-- The load step (R92), in phase LOAD: cell `j` takes the coefficient of the payload word, its
history cell the encoding of zero. -/
def Engine.loadStep (w : BitVec c.cmdw) (e : Engine c) : Except Fault (Engine c) :=
  match writeCell .coef c.nmax e.coef e.j.toNat (coefOperand c w) with
  | .error f => .error f
  | .ok coef =>
    match writeCell .hist c.nmax e.hist e.j.toNat c.num.zeroS with
    | .error f => .error f
    | .ok hist =>
      if e.j.toNat + 1 < e.N.toNat then
        .ok { e with coef := coef, hist := hist, j := e.j + 1 }
      else
        .ok (Engine.createDone { e with coef := coef, hist := hist })

/-- The discard step (R94), in phase DISCARD: the payload word is dropped whole, and the last one
ends the command with the error CAPACITY. -/
def Engine.discardStep (_w : BitVec c.cmdw) (e : Engine c) : Engine c :=
  if 1 < e.rem.toNat then { e with rem := e.rem - 1 } else e.raiseError .capacity

/-- `CREATE`: the step its header word calls for (R82, R91, R94, R95). The payload words are steps of
their own (log 8); that all of them together have the effect R90 gives the command is a statement. -/
def execCreate (n : Nat) (s : State) : Host.Outcome State Fault Refusal :=
  .next { s with engine := s.engine.createHeader n }

end Sys2Proof.Machine
end

