-- ==== Sys2Proof/Machine/Process.lean ====
section
/-! DEFINITION. The steps of `PROC` (41_process.md R101 to R104) and the meaning of its header. -/

namespace Sys2Proof.Machine

variable {c : Config}

/-- The header step (R101): without a filter an error, else the sample is latched. -/
def Engine.procHeader (x : Nat) (e : Engine c) : Engine c :=
  if e.valid then { e with xin := sampleOperand c x, phase := .write }
  else e.raiseError .noFilter

/-- The write step (R102), in phase WRITE: the one buffer write of the command; the accumulator
starts from the encoding of the empty sum (90_conflicts.md C14). `draw` is used by no number system
whose zero sum is a number. -/
def Engine.writeStep (draw : BitVec 53) (e : Engine c) : Except Fault (Engine c) :=
  match writeCell .hist c.nmax e.hist e.wc.toNat e.xin with
  | .error f => .error f
  | .ok hist =>
    .ok { e with hist := hist, acc := c.num.encA draw c.num.zeroA, j := 0, phase := .mac }

/-- The running total with one more product (42_numerics.md R124): the product is complete before it
is added. `draw` is the not-a-number drawn if the sum is one (R128). -/
def macSum (c : Config) (draw : BitVec 53) (acc : BitVec c.aw) (k : BitVec c.cw) (h : BitVec c.sw) :
    BitVec c.aw :=
  c.num.encA draw (c.num.add (c.num.decA acc) (c.num.mul (c.num.decC k) (c.num.decS h)))

/-- The MAC step (R103), in phase MAC: coefficient `j` meets the sample of age `j`. -/
def Engine.macStep (draw : BitVec 53) (e : Engine c) : Except Fault (Engine c) :=
  match readCell .coef c.nmax e.coef e.j.toNat with
  | .error f => .error f
  | .ok k =>
    match readCell .hist c.nmax e.hist (readIndex e.wc.toNat e.j.toNat e.N.toNat) with
    | .error f => .error f
    | .ok h =>
      if e.j.toNat + 1 < e.N.toNat then
        .ok { e with acc := macSum c draw e.acc k h, j := e.j + 1 }
      else
        .ok { e with acc := macSum c draw e.acc k h, j := e.j + 1, phase := .adv }

/-- The advance step (R104), in phase ADV: the cursor moves up by one, modulo N, and the sum is the
response. -/
def Engine.advStep (e : Engine c) : Engine c :=
  Engine.respond .ok e.acc
    { e with wc := BitVec.ofNat c.iw (nextCursor e.wc.toNat e.N.toNat) }

/-- `PROC`: the step its header word calls for (R101). The write, MAC and advance steps follow as
steps of their own (log 8); that all of them together have the effect R100 gives the command is a
statement. -/
def execProc (x : Nat) (s : State) : Host.Outcome State Fault Refusal :=
  .next { s with engine := s.engine.procHeader x }

end Sys2Proof.Machine
end

