-- ==== Sys2Proof/Machine/Reserved.lean ====
section
/-! DEFINITION. The reserved headers (30_encoding.md R77). -/

namespace Sys2Proof.Machine

variable {c : Config}

/-- A reserved header: the error ILLEGAL_COMMAND; the data field is ignored, and nothing but the
response register is written (R77). -/
def Engine.reservedHeader (_data : Nat) (e : Engine c) : Engine c :=
  e.raiseError .illegalCommand

/-- `RSVD0`, op 00 (R77). -/
def execRsvd0 (d : Nat) (s : State) : Host.Outcome State Fault Refusal :=
  .next { s with engine := s.engine.reservedHeader d }

/-- `RSVD3`, op 11 (R77). -/
def execRsvd3 (d : Nat) (s : State) : Host.Outcome State Fault Refusal :=
  .next { s with engine := s.engine.reservedHeader d }

end Sys2Proof.Machine
end

