-- ==== Sys2Proof/Machine/Dispatch.lean ====
section
/-! DEFINITION. Header dispatch (30_encoding.md R82): one arm per row of the opcode table. -/

namespace Sys2Proof.Machine

/-- The step an accepted header word calls for. -/
def exec (i : Instr) (s : State) : Host.Outcome State Fault Refusal :=
  match i with
  | .create n => Sys2Proof.Machine.execCreate n s
  | .proc x => Sys2Proof.Machine.execProc x s
  | .rsvd0 d => Sys2Proof.Machine.execRsvd0 d s
  | .rsvd3 d => Sys2Proof.Machine.execRsvd3 d s

end Sys2Proof.Machine
end

