-- ==== Sys2Proof/Machine/Moves.lean ====
section
/-! DEFINITION. The step relation of one engine of any configuration (70_reset_and_hazards.md R178):
the eight moves, which of them a rising edge makes under given port inputs (10_state.md R42 to R44,
60_exceptions.md R148), and a run of edges with the responses transferred (R176). -/

namespace Sys2Proof.Machine

variable {c : Config}

/-- The moves of R178, one constructor per row of its table. -/
inductive Move (c : Config) where
  | reset
  | header (w : BitVec c.cmdw)
  | load (w : BitVec c.cmdw)
  | discard (w : BitVec c.cmdw)
  | write
  | mac
  | adv
  | take
  deriving DecidableEq, Repr

/-- In which phase a move is enabled (R178). -/
def Move.enabledIn : Move c → Phase → Bool
  | .reset, _ => true
  | .header _, p => decide (p = .idle)
  | .load _, p => decide (p = .load)
  | .discard _, p => decide (p = .discard)
  | .write, p => decide (p = .write)
  | .mac, p => decide (p = .mac)
  | .adv, p => decide (p = .adv)
  | .take, p => decide (p = .resp)

/-- The step a header calls for, by instruction (30_encoding.md R82). -/
def Engine.headerStep (i : Instr) (e : Engine c) : Engine c :=
  match i with
  | .create n => e.createHeader n
  | .proc x => e.procHeader x
  | .rsvd0 d => e.reservedHeader d
  | .rsvd3 d => e.reservedHeader d

/-- The effect of a move (R178). `draw` is the not-a-number drawn, should the move make one (R128). -/
def Engine.apply (draw : BitVec 53) (m : Move c) (e : Engine c) : Except Fault (Engine c) :=
  match m with
  | .reset => .ok e.resetEdge
  | .header w => .ok (e.headerStep (decodeHeader c.dw w))
  | .load w => e.loadStep w
  | .discard w => .ok (e.discardStep w)
  | .write => e.writeStep draw
  | .mac => e.macStep draw
  | .adv => .ok e.advStep
  | .take => .ok e.endResponse

/-- The input ports at one rising edge of `clk` (R42). -/
structure Inputs (c : Config) where
  rst : Bool
  cmdValid : Bool
  cmdWord : BitVec c.cmdw
  rspReady : Bool
  deriving DecidableEq, Repr

/-- The output ports (R42). -/
structure Outputs (c : Config) where
  cmdReady : Bool
  rspValid : Bool
  rspWord : BitVec c.rspw
  deriving DecidableEq, Repr

/-- The input ports of a host that does nothing. -/
def Inputs.silent (c : Config) : Inputs c := ⟨false, false, 0, false⟩

/-- What the engine drives (R42, R44, R79). What `rsp_word` carries while `rsp_valid = 0` the spec
leaves open (R31, R167); the model drives the kept registers there (DESIGN CHOICE, log 22), and no
statement rests on it. -/
def Engine.outputs (e : Engine c) : Outputs c :=
  ⟨e.phase.cmdReady, e.rspValid, e.rspWord⟩

/-- A command word is transferred at this edge (R43). -/
def Inputs.givesWord (i : Inputs c) (p : Phase) : Bool :=
  !i.rst && i.cmdValid && p.cmdReady

/-- Which move a rising edge makes, if any. Reset outranks everything (R148, R165); in the phases
that accept a word the phase alone says what the word is (30_encoding.md R76); an own step of the
engine needs nothing of the host. -/
def Inputs.move (i : Inputs c) (p : Phase) : Option (Move c) :=
  if i.rst then some .reset
  else match p with
    | .idle => if i.givesWord p then some (.header i.cmdWord) else none
    | .load => if i.givesWord p then some (.load i.cmdWord) else none
    | .discard => if i.givesWord p then some (.discard i.cmdWord) else none
    | .write => some .write
    | .mac => some .mac
    | .adv => some .adv
    | .resp => if i.rspReady then some .take else none

/-- One rising edge at which the engine makes the move it can make, or holds (R43, R172, R174). -/
def Engine.edge (draw : BitVec 53) (i : Inputs c) (e : Engine c) : Except Fault (Engine c) :=
  match i.move e.phase with
  | none => .ok e
  | some m => e.apply draw m

/-- The response word transferred at this edge, if one is (R43). -/
def Engine.transferred (i : Inputs c) (e : Engine c) : Option (BitVec c.rspw) :=
  if !i.rst && e.rspValid && i.rspReady then some e.rspWord else none

/-- A run of edges: the engine after them and the responses transferred, in order (R176). Edge `d`
draws the not-a-number of index `d` (R128). -/
def Engine.edges (d : Nat) : List (Inputs c) → Engine c →
    Except Fault (Engine c × List (BitVec c.rspw))
  | [], e => .ok (e, [])
  | i :: is, e =>
    match e.edge (Config.freeNan d) i with
    | .error f => .error f
    | .ok e' =>
      match Engine.edges (d + 1) is e' with
      | .error f => .error f
      | .ok (e'', ws) => .ok (e'', (e.transferred i).toList ++ ws)

/-- `k` own steps of the engine, the host doing nothing: the part of a `PROC` after its header. -/
def Engine.ownSteps (d : Nat) : Nat → Engine c → Except Fault (Engine c)
  | 0, e => .ok e
  | k + 1, e =>
    match e.edge (Config.freeNan d) (Inputs.silent c) with
    | .error f => .error f
    | .ok e' => Engine.ownSteps (d + 1) k e'

/-- Giving command words one after another, nothing else happening in between. -/
def Engine.give (d : Nat) : List (BitVec c.cmdw) → Engine c → Except Fault (Engine c)
  | [], e => .ok e
  | w :: ws, e =>
    match e.edge (Config.freeNan d) ⟨false, true, w, false⟩ with
    | .error f => .error f
    | .ok e' => Engine.give (d + 1) ws e'

end Sys2Proof.Machine
end

