-- ==== Sys2Proof/Machine/Fetch.lean ====
section
/-! DEFINITION. The host's side of the default machine: what its script offers at the next step,
what is left of the script afterwards, and how an instruction's words are offered (logs 5, 6, 14). -/

namespace Sys2Proof.Machine

/-- The port inputs by which the host makes a move (10_state.md R42, R43). -/
def HostMove.inputs : HostMove → Inputs Config.default
  | .reset => ⟨true, false, 0, false⟩
  | .word w => ⟨false, true, w, false⟩
  | .take => ⟨false, false, 0, true⟩
  | .pause => ⟨false, false, 0, false⟩

/-- The port inputs at the next step: those of the first move of the script, or none. -/
def State.offer (s : State) : Inputs Config.default :=
  match s.script with
  | [] => Inputs.silent Config.default
  | m :: _ => m.inputs

/-- Whether a host move is over after one step in this phase. A word is held until it is accepted
and `rsp_ready` until a response is transferred (R43); reset and a pause last one step. -/
def HostMove.doneIn : HostMove → Phase → Bool
  | .reset, _ => true
  | .word _, p => p.cmdReady
  | .take, p => decide (p = .resp)
  | .pause, _ => true

/-- The script after the step. -/
def State.restOfScript (s : State) : List HostMove :=
  match s.script with
  | [] => []
  | m :: ms => if m.doneIn s.engine.phase then ms else m :: ms

/-- The responses taken after the step: one more if one is transferred (R43). -/
def State.takenAfter (s : State) : List (BitVec Config.default.rspw) :=
  s.taken ++ (s.engine.transferred s.offer).toList

/-- The state after the host's part of a step, before the engine's. -/
def State.hostPart (s : State) : State :=
  { s with script := s.restOfScript, taken := s.takenAfter }

/-- The words of an instruction whose header is `w`: the header, then as many payload words of zeros
as it calls for (30_encoding.md R75). -/
def tableWords (w : Nat) : List (BitVec Config.default.cmdw) :=
  let header := BitVec.ofNat Config.default.cmdw w
  header :: List.replicate (decodeHeader Config.default.dw header).payloadWords 0

/-- An engine that accepts a header word at its next step: phase IDLE, no response pending (R44). -/
def Engine.readyForHeader (e : Engine Config.default) : Engine Config.default :=
  { e with phase := .idle, rspValid := false }

end Sys2Proof.Machine
end

