-- ==== Sys2Proof/Machine/Step.lean ====
section
/-! DEFINITION. One step of the machine: one move of 70_reset_and_hazards.md R178, or a step in which
nothing can move. -/

namespace Sys2Proof.Machine

/-- One step. The ports carry what the host's script offers. A header word accepted in phase IDLE is
decoded and run by `exec` (30_encoding.md R82); every other move is the engine's own or a port
transfer (R178), taken as soon as it is enabled (log 16). Where no move is enabled the engine holds and nothing changes but a pause of the
host running out (R158, R172, R174; log 7). -/
def step (s : State) : Host.Outcome State Fault Refusal :=
  match s.offer.move s.engine.phase with
  | none => .next s.hostPart
  | some (.header w) => exec (decodeHeader Config.default.dw w) s.hostPart
  | some m => s.hostPart.withEngine (s.engine.apply (Config.freeNan 0) m)

/-- The state `s` with the instruction whose header has the bits `w` offered to the engine next: its
words stand first in the host's script and the engine waits for a header (log 14). -/
def State.withFetchWord (s : State) (_nbits w : Nat) : State :=
  { s with
    engine := s.engine.readyForHeader
    script := (tableWords w).map HostMove.word ++ s.script }

end Sys2Proof.Machine
end

