-- ==== Sys2Proof/Machine/Command.lean ====
section
/-! DEFINITION. The command level: each command as ONE function from the filter before it to the
filter after it and the response (40_create.md R90, 41_process.md R100), the normative semantics with
which the steps agree (R98, R111). A filter is the triple of 10_state.md R35, as encodings; its
decoding is the document's entity. -/

namespace Sys2Proof.Machine

variable {c : Config}

/-- A filter: `coefficients`, `history` and `writeCursor` of R35, as encodings. Each sequence has
exactly N elements (R32, R57). -/
structure Filter (c : Config) where
  coef : List (BitVec c.cw)
  hist : List (BitVec c.sw)
  wc : Nat
  deriving DecidableEq, Repr

/-- The tap count (R11). -/
def Filter.taps (f : Filter c) : Nat := f.coef.length

/-- The lengths and the cursor are those of a filter (R32, R23). -/
def Filter.wf (f : Filter c) : Bool :=
  decide (1 ≤ f.taps) && decide (f.taps ≤ c.nmax) && decide (f.hist.length = f.taps)
    && decide (f.wc < f.taps)

/-- Construction (R90): the coefficients by value, a history of as many zeros, the cursor at 0. -/
def Filter.create (cs : List (BitVec c.cw)) : Filter c where
  coef := cs
  hist := List.replicate cs.length c.num.zeroS
  wc := 0

/-- `hist[wc] <- x` (R100 item 1). -/
def Filter.store (x : BitVec c.sw) (f : Filter c) : Filter c :=
  { f with hist := f.hist.set f.wc x }

/-- The product of tap `j`: coefficient `j` and the sample of age `j` (R58, R100 item 2). -/
def Filter.product (f : Filter c) (j : Nat) : c.num.A :=
  c.num.mul (c.num.decC (f.coef.getD j 0))
    (c.num.decS (f.hist.getD (readIndex f.wc j f.taps) 0))

/-- The running total `a_k` after `k` taps (R100 item 2, 42_numerics.md R124). -/
def Filter.total (f : Filter c) : Nat → c.num.A
  | 0 => c.num.zeroA
  | k + 1 => c.num.add (f.total k) (f.product k)

/-- `wc <- (wc + 1) mod N` (R100 item 3). -/
def Filter.advance (f : Filter c) : Filter c :=
  { f with wc := nextCursor f.wc f.taps }

/-- The output sample of `PROC x`: the sum over all taps after the sample has been stored (R100). -/
def Filter.output (x : BitVec c.sw) (f : Filter c) : c.num.A :=
  (f.store x).total f.taps

/-- The filter after `PROC x` (R100). -/
def Filter.proc (x : BitVec c.sw) (f : Filter c) : Filter c :=
  (f.store x).advance

/-- The filter after a stream of samples. -/
def Filter.procAll (f : Filter c) (xs : List (BitVec c.sw)) : Filter c :=
  xs.foldl (fun g x => g.proc x) f

/-- The outputs of a stream of samples, in order. -/
def Filter.outputs (f : Filter c) : List (BitVec c.sw) → List c.num.A
  | [] => []
  | x :: xs => f.output x :: (f.proc x).outputs xs

/-- A response: status and data (30_encoding.md R79, R81). -/
structure Response (c : Config) where
  status : Status
  data : BitVec c.aw
  deriving DecidableEq, Repr

/-- The response word (R79). -/
def Response.word (r : Response c) : BitVec c.rspw := responseWord r.status.code r.data

/-- The commands with their operands (30_encoding.md R70, R72), the reserved headers included. -/
inductive Command (c : Config) where
  | create (cs : List (BitVec c.cw))
  | proc (x : BitVec c.sw)
  | reserved0 (d : BitVec c.dw)
  | reserved3 (d : BitVec c.dw)
  deriving DecidableEq, Repr

/-- The header of a command (R72, R73). -/
def Command.header : Command c → Instr
  | .create cs => .create cs.length
  | .proc x => .proc x.toNat
  | .reserved0 d => .rsvd0 d.toNat
  | .reserved3 d => .rsvd3 d.toNat

/-- The payload of a command, as the assembler writes it (R74, R84). -/
def Command.payload : Command c → List (BitVec c.cmdw)
  | .create cs => cs.map (encodePayload c.dw c.cw)
  | .proc _ => []
  | .reserved0 _ => []
  | .reserved3 _ => []

/-- The words of a command (R75, R84). -/
def Command.words (k : Command c) : List (BitVec c.cmdw) :=
  encodeHeader c.dw k.header :: k.payload

/-- The count of a `CREATE` fits the data field (R73). -/
def Command.wf (k : Command c) : Bool := k.header.wf c.dw

/-- The effect of a whole command on the filter there is, if any, and its response (R90, R100,
R77). `draw` is the not-a-number drawn if the output is one (R128). -/
def Command.run (draw : BitVec 53) (k : Command c) (f : Option (Filter c)) :
    Option (Filter c) × Response c :=
  match k with
  | .create cs =>
    if cs.length = 0 then (f, ⟨.invalidArgument, 0⟩)
    else if c.nmax < cs.length then (f, ⟨.capacity, 0⟩)
    else (some (Filter.create cs), ⟨.ok, 0⟩)
  | .proc x =>
    match f with
    | none => (none, ⟨.noFilter, 0⟩)
    | some g => (some (g.proc x), ⟨.ok, c.num.encA draw (g.output x)⟩)
  | .reserved0 _ => (f, ⟨.illegalCommand, 0⟩)
  | .reserved3 _ => (f, ⟨.illegalCommand, 0⟩)

/-- A sequence of commands: the filter at the end and the responses in order (20_memory.md R62,
30_encoding.md R83). Command number `d` draws the not-a-number of index `d`. -/
def Command.runAll (d : Nat) : List (Command c) → Option (Filter c) →
    Option (Filter c) × List (Response c)
  | [], f => (f, [])
  | k :: ks, f =>
    let one := k.run (Config.freeNan d) f
    let rest := Command.runAll (d + 1) ks one.1
    (rest.1, one.2 :: rest.2)

/-- The first `n` cells of a memory; a cell without a value is listed as zero, which the filter of
a reachable state never needs (70_reset_and_hazards.md R167). -/
def Memory.firstCells {w : Nat} (n : Nat) (m : Memory w) : List (BitVec w) :=
  (List.range n).map (fun i => (m.read i).getD 0)

/-- The filter in an engine (R35): none while `valid = 0`. -/
def Engine.filter (e : Engine c) : Option (Filter c) :=
  if e.valid then
    some ⟨e.coef.firstCells e.N.toNat, e.hist.firstCells e.N.toNat, e.wc.toNat⟩
  else none

/-- The document's `FIRFilter` (R35), as values of the number system. -/
structure FirFilter (c : Config) where
  coefficients : List c.num.C
  history : List c.num.S
  writeCursor : Nat

/-- The triple that a filter of encodings stands for (R35). -/
def Filter.decoded (f : Filter c) : FirFilter c where
  coefficients := f.coef.map c.num.decC
  history := f.hist.map c.num.decS
  writeCursor := f.wc

/-- The document's entity, recovered from the engine (R35): "no filter" while `valid = 0`. -/
def Engine.firFilter (e : Engine c) : Option (FirFilter c) :=
  e.filter.map Filter.decoded

/-- Sample number `i` of a lifetime, counted from 1, or the encoding of zero if there is none: a
sample before the first counts as zero (41_process.md R112). -/
def sampleAt (c : Config) (xs : List (BitVec c.sw)) (i : Int) : BitVec c.sw :=
  if 1 ≤ i then xs.getD (i - 1).toNat c.num.zeroS else c.num.zeroS

/-- The closed form (R112): the `k`-th output of a lifetime with coefficients `cs` and samples `xs`,
its first `n` terms. -/
def convolution (c : Config) (cs : List (BitVec c.cw)) (xs : List (BitVec c.sw)) (k : Nat) :
    Nat → c.num.A
  | 0 => c.num.zeroA
  | n + 1 =>
    c.num.add (convolution c cs xs k n)
      (c.num.mul (c.num.decC (cs.getD n 0)) (c.num.decS (sampleAt c xs ((k : Int) - n))))

end Sys2Proof.Machine
end

