-- ==== Sys2Proof/Machine/Assembler.lean ====
section
/-! DEFINITION. The notation for programs and responses (30_encoding.md R84, R85), for an INT
configuration: from the lines of a program, as data, to the words they emit, and the texts by which
words and responses are written. -/

namespace Sys2Proof.Machine

/-- An operand: a decimal integer, or a hexadecimal bit pattern taken as it is (R84). -/
inductive Operand where
  | decimal (v : Int)
  | pattern (b : Nat)
  deriving DecidableEq, Repr

/-- One entry of a `CREATE` operand list: an operand, or `.rep m, c` (R84). -/
inductive Entry where
  | one (o : Operand)
  | rep (m : Nat) (o : Operand)
  deriving DecidableEq, Repr

/-- A line of a program (R84). -/
inductive Line where
  | create (entries : List Entry)
  | proc (o : Operand)
  | word (v : Nat)
  deriving DecidableEq, Repr

/-- The `w`-bit encoding of an operand, `twos_w` of a decimal one in range; none if it does not fit
(R84). -/
def Operand.encode (w : Nat) : Operand → Option (BitVec w)
  | .decimal v =>
    if -(2 ^ (w - 1) : Int) ≤ v ∧ v < 2 ^ (w - 1) then some (twos w v) else none
  | .pattern b => if b < 2 ^ w then some (BitVec.ofNat w b) else none

/-- The operands an entry stands for. -/
def Entry.operands : Entry → List Operand
  | .one o => [o]
  | .rep m o => List.replicate m o

/-- The words a line emits (R84); none if an operand does not fit its field. -/
def Line.words (nmax sw cw aw : Nat) : Line → Option (List (BitVec (Config.int nmax sw cw aw).cmdw))
  | .create entries => do
    let cs ← (entries.flatMap Entry.operands).mapM (Operand.encode cw)
    let k : Command (Config.int nmax sw cw aw) := .create cs
    if k.wf then some k.words else none
  | .proc o => do
    let x ← o.encode sw
    some (Command.words (c := Config.int nmax sw cw aw) (.proc x))
  | .word v =>
    if v < 2 ^ (Config.int nmax sw cw aw).cmdw then some [BitVec.ofNat _ v] else none

/-- The words of a program, in order. -/
def assemble (nmax sw cw aw : Nat) (ls : List Line) :
    Option (List (BitVec (Config.int nmax sw cw aw).cmdw)) :=
  (ls.mapM (Line.words nmax sw cw aw)).map List.flatten

/-- A word in hexadecimal with `ceil(width / 4)` digits (00_scope.md R13, R85), as characters. -/
def hexText (w : Nat) (b : BitVec w) : List Char :=
  (List.range ((w + 3) / 4)).reverse.map
    (fun i => (Nat.digitChar (b.toNat / 16 ^ i % 16)).toUpper)

/-- The name of a status (60_exceptions.md R140). -/
def Status.name : Status → String
  | .ok => "OK"
  | .invalidArgument => "INVALID_ARGUMENT"
  | .capacity => "CAPACITY"
  | .noFilter => "NO_FILTER"
  | .illegalCommand => "ILLEGAL_COMMAND"

/-- A response written `status:data`, the data as the integer it encodes (R85). -/
def responseText {nmax sw cw aw : Nat} (r : Response (Config.int nmax sw cw aw)) : String :=
  r.status.name ++ ":" ++ toString (signed aw r.data)

end Sys2Proof.Machine
end

