-- ==== Sys2Proof/Safety.lean ====
section
/-! DEFINITION. The terms claims are stated in: the invariant of the engine, when two engines agree
on everything the spec gives a value, what a number system must do for a sum to survive its own
encoding, and a host that leaves the engine alone. -/

namespace Sys2Proof

/-- `decA(encA(a)) = a` for every value and every draw (42_numerics.md R115). -/
def Num.RoundTrip (nm : Num) : Prop :=
  ∀ draw a, nm.decA (nm.encA draw a) = a

/-- A running total may be put through its own encoding between two additions and nothing is lost:
what R115 asks of `decA(encA(a)) = a` "for every `a` the engine can form", said without naming which
values those are. F64 has it by `RoundTrip`; INT has it too, with all integers as its value set
(log 13). -/
def Num.Faithful (nm : Num) : Prop :=
  ∀ draw draw' a p, nm.encA draw (nm.add (nm.decA (nm.encA draw' a)) p) = nm.encA draw (nm.add a p)

end Sys2Proof

namespace Sys2Proof.Machine

variable {c : Config}

/-- What holds of the engine in every reachable state, in every phase (10_state.md R23 to R31,
20_memory.md R57, R60). -/
structure Engine.Inv (e : Engine c) : Prop where
  /-- Both memories keep their canonical form. -/
  coefForm : Memory.wf e.coef = true
  histForm : Memory.wf e.hist = true
  /-- No cell exists at NMAX or above (R50). -/
  coefRoom : ∀ i, c.nmax ≤ i → e.coef.read i = none
  histRoom : ∀ i, c.nmax ≤ i → e.hist.read i = none
  /-- `1 <= N <= NMAX` while a filter exists or is being loaded (R24). -/
  count : e.valid = true ∨ e.phase = .load → 1 ≤ e.N.toNat ∧ e.N.toNat ≤ c.nmax
  /-- The cursor is in range (R23). -/
  cursor : e.valid = true → e.wc.toNat < e.N.toNat
  /-- Every cell of the filter holds a value, and no cell outside it does (R57, R167). -/
  cells : e.valid = true → ∀ i, i < e.N.toNat →
    (e.coef.read i).isSome = true ∧ (e.hist.read i).isSome = true
  outside : e.valid = true → ∀ i, e.N.toNat ≤ i → e.coef.read i = none ∧ e.hist.read i = none
  /-- In LOAD no filter exists, `j` words have been taken, and their cells are written (R27, R91, R92). -/
  loading : e.phase = .load → e.valid = false ∧ e.j.toNat < e.N.toNat ∧
    ∀ i, i < e.j.toNat → (e.coef.read i).isSome = true ∧ e.hist.read i = some c.num.zeroS
  /-- In DISCARD at least one payload word is still to be dropped (R28). -/
  discarding : e.phase = .discard → 1 ≤ e.rem.toNat
  /-- A `PROC` past its header has a filter (R101). -/
  processing : e.phase.own = true → e.valid = true
  /-- `j` taps are done in MAC, all of them in ADV (R27, R103). -/
  accumulating : e.phase = .mac → e.j.toNat < e.N.toNat
  accumulated : e.phase = .adv → e.j = e.N
  /-- `rsp_valid = 1` exactly when `phase = RESP` (R31). -/
  offering : e.rspValid = true ↔ e.phase = .resp
  /-- A response offered carries one of the five codes, and data only with OK (R140, R81). -/
  status : e.rspValid = true → e.rspStatus.toNat ≤ 4
  errorData : e.rspValid = true → e.rspStatus ≠ 0 → e.rspData = 0

/-- The invariant of the machine: that of its engine. -/
def State.Inv (s : State) : Prop := s.engine.Inv

/-- Two engines agree on every element that has a specified value in their phase (R27 to R31, R57,
R166): what they differ in is unspecified. -/
structure Engine.Same (e e' : Engine c) : Prop where
  valid : e.valid = e'.valid
  phase : e.phase = e'.phase
  rspValid : e.rspValid = e'.rspValid
  count : e.valid = true ∨ e.phase = .load → e.N = e'.N
  cursor : e.valid = true → e.wc = e'.wc
  cells : e.valid = true → ∀ i, i < e.N.toNat →
    e.coef.read i = e'.coef.read i ∧ e.hist.read i = e'.hist.read i
  loading : e.phase = .load → e.j = e'.j ∧
    ∀ i, i < e.j.toNat → e.coef.read i = e'.coef.read i ∧ e.hist.read i = e'.hist.read i
  discarding : e.phase = .discard → e.rem = e'.rem
  writing : e.phase = .write → e.xin = e'.xin
  accumulating : e.phase = .mac → e.j = e'.j ∧ e.acc = e'.acc
  accumulated : e.phase = .adv → e.acc = e'.acc
  response : e.rspValid = true → e.rspStatus = e'.rspStatus ∧ e.rspData = e'.rspData

/-- The host neither resets the engine nor runs down a pause at the next step: the script is empty
or begins with an offer that is held until it is taken up. -/
def State.quiet (s : State) : Bool :=
  match s.script with
  | [] => true
  | .reset :: _ => false
  | .word _ :: _ => true
  | .take :: _ => true
  | .pause :: _ => false

/-- `k` steps of the machine, stopping at the first fault or refusal. -/
def State.run (k : Nat) (s : State) : Host.Outcome State Fault Refusal :=
  Sys2Proof.core.run k s

/-- The host moves that send one command and take its response. -/
def Command.script (k : Command Config.default) : List HostMove :=
  k.words.map HostMove.word ++ [.take]

/-- The engine steps of one whole command from phase IDLE, the taking of its response included
(70_reset_and_hazards.md R175): the accepted words, the own steps of a `PROC` that has a filter of
`n` taps, and the response. -/
def Command.stepCount (k : Command Config.default) (f : Option (Filter Config.default)) : Nat :=
  match k, f with
  | .proc _, some g => 1 + (g.taps + 2) + 1
  | _, _ => k.words.length + 1

/-- The steps of a whole list of commands (R175). -/
def Command.stepsOfAll : List (Command Config.default) → Option (Filter Config.default) → Nat
  | [], _ => 0
  | k :: ks, f => k.stepCount f + Command.stepsOfAll ks (k.run (Config.freeNan 0) f).1

/-- A command that cannot end a lifetime: anything but a `CREATE` whose count is in range (40_create.md
R97). -/
def Command.keepsFilter (k : Command c) : Bool :=
  match k with
  | .create cs => decide (cs.length = 0) || decide (c.nmax < cs.length)
  | .proc _ => true
  | .reserved0 _ => true
  | .reserved3 _ => true

/-- The samples of the `PROC` commands in a list of commands, in order. -/
def Command.samples : List (Command c) → List (BitVec c.sw)
  | [] => []
  | .proc x :: ks => x :: Command.samples ks
  | .create _ :: ks => Command.samples ks
  | .reserved0 _ :: ks => Command.samples ks
  | .reserved3 _ :: ks => Command.samples ks

section
variable {nmax sw cw aw : Nat}

/-- A running total of an INT filter, as an integer (42_numerics.md R117). -/
def Filter.intTotal (f : Filter (Config.int nmax sw cw aw)) (k : Nat) : Int := f.total k

/-- The output sample of an INT filter, as an integer (R117). -/
def Filter.intOutput (x : BitVec sw) (f : Filter (Config.int nmax sw cw aw)) : Int := f.output x

/-- The outputs of an INT filter, as integers (R117). -/
def Filter.intOutputs (f : Filter (Config.int nmax sw cw aw)) (xs : List (BitVec sw)) : List Int :=
  f.outputs xs

/-- The product of a coefficient and a sample in INT, as an integer (R119). -/
def intProduct (aw : Nat) (k : BitVec cw) (h : BitVec sw) : Int :=
  (Num.int sw cw aw).mul ((Num.int sw cw aw).decC k) ((Num.int sw cw aw).decS h)

/-- `x` is the number of sign `neg` and exact magnitude `m * 2^-(1074 + k)`, rounded once to nearest,
ties to even (R126). A finite `x` is no farther from it than any other finite datum, and its last bit
is 0 if another is as near. An infinite `x` needs a magnitude at least halfway from the greatest
finite one to the next power of two; that midpoint itself rounds up, being a tie whose lower end is
odd. -/
def F64.IsRounded (neg : Bool) (m k : Nat) (x : F64) : Prop :=
  match x with
  | .nan => False
  | .inf n =>
    n = neg ∧ (unitsOf (finiteMagnitudes - 1) + unitsOf finiteMagnitudes) * 2 ^ k ≤ 2 * m
  | .fin n mag =>
    n = neg ∧ 2 * m < (unitsOf (finiteMagnitudes - 1) + unitsOf finiteMagnitudes) * 2 ^ k ∧
    ∀ other : Fin finiteMagnitudes, other ≠ mag →
      |(unitsOf mag.val * 2 ^ k : Int) - m| < |(unitsOf other.val * 2 ^ k : Int) - m| ∨
      (|(unitsOf mag.val * 2 ^ k : Int) - m| = |(unitsOf other.val * 2 ^ k : Int) - m| ∧
        mag.val % 2 = 0)

/-- The number 1.0 (R125), the first sample of P1's stream (R113). -/
def F64.one : F64 := .fin false ⟨1023 * 2 ^ 52, by decide⟩

/-- A datum that is neither an infinity nor a not-a-number (R125, R129). -/
def F64.isFinite : F64 → Bool
  | .fin _ _ => true
  | .inf _ => false
  | .nan => false

/-- The outputs of an F64 filter (R125). -/
def Filter.f64Outputs (f : Filter (Config.f64 nmax)) (xs : List (BitVec 64)) : List F64 :=
  f.outputs xs

/-- A running total of an F64 filter (R125). -/
def Filter.f64Total (f : Filter (Config.f64 nmax)) (k : Nat) : F64 := f.total k
end

end Sys2Proof.Machine
end

