-- ==== Sys2Proof/Certificates/Slice0/Obligations.lean ====
section
/-! DEFINITION. The statements for the provers, from the spec's numbered rules. Statements about
`exec`, `step` and `State.run` are about the default machine; statements about `Engine`, `Filter` and
`Num` are about every configuration. -/

open Sys2Proof Sys2Proof.Machine

/-! ## Encoding -/

/-- Derived from R71, R72, R73: reading the header word of an instruction gives the instruction
back, for every instruction whose number fits the data field, at every data width. -/
def Obligations.HeaderDecodeInvertsEncode : Prop :=
  ∀ (dw : Nat) (i : Instr), i.wf dw = true → decodeHeader dw (encodeHeader dw i) = i

/-- Derived from R71, R72, R76: every word is the header of exactly one instruction, and no bit of
it is dropped. -/
def Obligations.HeaderEncodeInvertsDecode : Prop :=
  ∀ (dw : Nat) (w : BitVec (2 + dw)),
    (decodeHeader dw w).wf dw = true ∧ encodeHeader dw (decodeHeader dw w) = w

/-- Derived from R71, R72: header words written out by the spec (30_encoding.md section 7,
95_test_vectors.md V1, V3); the last number is wider than a command word, which the decoder rejects
(the model's choice, log 17). -/
def Obligations.SpecWordsDecode : Prop :=
  decodeTableWord 24 0x10007 = some (.create 7) ∧
  decodeTableWord 24 0x10100 = some (.create 256) ∧
  decodeTableWord 24 0x1FFFF = some (.create 65535) ∧
  decodeTableWord 24 0x28000 = some (.proc 0x8000) ∧
  decodeTableWord 24 0x2FFEC = some (.proc 0xFFEC) ∧
  decodeTableWord 24 0x0FFFF = some (.rsvd0 0xFFFF) ∧
  decodeTableWord 24 0x3ABCD = some (.rsvd3 0xABCD) ∧
  decodeTableWord 24 0x40000 = none

/-- Derived from R74: the op field of a payload word is not looked at, nor is any data bit above
CW; the coefficient is the low CW bits of the data. -/
def Obligations.PayloadReadsOnlyItsCoefficient : Prop :=
  ∀ (c : Config) (op op' : BitVec 2) (d d' : BitVec c.dw) (e : Engine c),
    (∀ k, k < c.cw → (coefOperand c (op ++ d)).getLsbD k = d.getLsbD k) ∧
    ((∀ k, k < c.cw → d.getLsbD k = d'.getLsbD k) →
      e.loadStep (op ++ d) = e.loadStep (op' ++ d')) ∧
    e.discardStep (op ++ d) = e.discardStep (op' ++ d')

/-- Derived from R73: of a `PROC` header's data only the low SW bits, the sample, have any effect.
-/
def Obligations.SampleIsTheLowBits : Prop :=
  ∀ (c : Config) (x x' : Nat) (e : Engine c), x % 2 ^ c.sw = x' % 2 ^ c.sw →
    e.procHeader x = e.procHeader x' ∧ (sampleOperand c x).toNat = x % 2 ^ c.sw

/-- R75: the length of a command in words is fixed by its header alone, whatever the outcome: `1 +
n` for a `CREATE` of count `n`, 1 for every other header. So many words the engine takes and no
more: while fewer have been given it still accepts words, and after the last it does not. -/
def Obligations.CommandLengthIsInTheHeader : Prop :=
  (∀ n : Nat, (Instr.create n).length = 1 + n ∧ (Instr.proc n).length = 1 ∧
    (Instr.rsvd0 n).length = 1 ∧ (Instr.rsvd3 n).length = 1) ∧
  (∀ (c : Config) (d : Nat) (e : Engine c) (header : BitVec c.cmdw) (payload : List (BitVec c.cmdw)),
    e.phase = .idle → 1 + payload.length = (decodeHeader c.dw header).length →
    (∀ k, k < 1 + payload.length →
      ∃ e', Engine.give d ((header :: payload).take k) e = .ok e' ∧ e'.phase.cmdReady = true) ∧
    ∃ e', Engine.give d (header :: payload) e = .ok e' ∧ e'.phase.cmdReady = false)

/-- Derived from R79: the fields of a response word are the status and the data. -/
def Obligations.ResponseWordFields : Prop :=
  ∀ (c : Config) (status : BitVec 3) (data : BitVec c.aw),
    (responseWord (c := c) status data).toNat / 2 ^ c.aw = status.toNat ∧
    (responseWord (c := c) status data).toNat % 2 ^ c.aw = data.toNat

/-- Derived from R84, R73, R74: the words the assembler emits for a `CREATE` and for a `PROC` are
read back as that command: its header as the count or the sample, each payload word as its
coefficient. -/
def Obligations.AssembledWordsReadBack : Prop :=
  ∀ (nmax sw cw aw : Nat) (o : Operand) (entries : List Entry)
    (ws : List (BitVec (Config.int nmax sw cw aw).cmdw)),
    (Line.words nmax sw cw aw (.create entries) = some ws →
      ∃ cs : List (BitVec cw),
        (entries.flatMap Entry.operands).mapM (Operand.encode cw) = some cs ∧
        ws.length = cs.length + 1 ∧
        ws.head?.map (decodeHeader (Config.int nmax sw cw aw).dw) = some (.create cs.length) ∧
        ws.tail.map (coefOperand (Config.int nmax sw cw aw)) = cs) ∧
    (Line.words nmax sw cw aw (.proc o) = some ws →
      ∃ x : BitVec sw, o.encode sw = some x ∧ ws.length = 1 ∧
        ws.head?.map (decodeHeader (Config.int nmax sw cw aw).dw) = some (.proc x.toNat) ∧
        sampleOperand (Config.int nmax sw cw aw) x.toNat = x)

/-! ## The configuration -/

/-- R10: the derived widths, what each holds, and their values in the default configuration and in
F64 with NMAX = 256. -/
def Obligations.DerivedWidths : Prop :=
  (∀ c : Config, c.iw = max 1 (clog2 c.nmax) ∧ c.nw = clog2 (c.nmax + 1) ∧
    c.dw = max c.sw (max c.cw c.nw) ∧ c.cmdw = 2 + c.dw ∧ c.rspw = 3 + c.aw ∧
    (∀ i, i < c.nmax → i < 2 ^ c.iw) ∧ (∀ n, n ≤ c.nmax → n < 2 ^ c.nw)) ∧
  Config.default.iw = 8 ∧ Config.default.nw = 9 ∧ Config.default.dw = 16 ∧
  Config.default.cmdw = 18 ∧ Config.default.rspw = 43 ∧
  (Config.f64 256).iw = 8 ∧ (Config.f64 256).nw = 9 ∧ (Config.f64 256).dw = 64 ∧
  (Config.f64 256).cmdw = 66 ∧ (Config.f64 256).rspw = 67

/-- R16: `clog2 m` is the least `e` with `2^e >= m`; the rule's four values. -/
def Obligations.Clog2IsTheLeastExponent : Prop :=
  (∀ m : Nat, 1 ≤ m → m ≤ 2 ^ clog2 m ∧ ∀ e, m ≤ 2 ^ e → clog2 m ≤ e) ∧
  clog2 1 = 0 ∧ clog2 2 = 1 ∧ clog2 256 = 8 ∧ clog2 257 = 9

/-- Derived from R7 and R9: exactly the INT configurations that break a bound are refused. -/
def Obligations.IllFormedIntConfigurationsRefused : Prop :=
  ∀ nmax sw cw aw : Nat,
    Config.int? nmax sw cw aw = none ↔
      nmax = 0 ∨ sw = 0 ∨ cw = 0 ∨ aw < sw + cw + clog2 nmax

/-! ## Header words: what `exec` answers -/

/-- Derived from R43, R76, R82, and the model's choice of one header step a `step` (logs 8, 14):
when the host offers a word and the engine waits for a header, the step is `exec` of the word's
instruction, the word being gone from the host's script; and `withFetchWord` offers a word so. -/
def Obligations.StepRunsTheDecodedHeader : Prop :=
  (∀ (s : State) (w : BitVec Config.default.cmdw) (rest : List HostMove),
    s.engine.phase = .idle → s.script = .word w :: rest →
      step s = exec (decodeHeader Config.default.dw w) { s with script := rest }) ∧
  (∀ (s : State) (nbits w : Nat) (i : Instr), decodeTableWord nbits w = some i →
    step (s.withFetchWord nbits w) =
      exec i { s with
        engine := { s.engine with phase := .idle, rspValid := false }
        script := List.replicate i.payloadWords (.word 0) ++ s.script })

/-- R95: `CREATE` with an empty sequence answers INVALID_ARGUMENT, and nothing else is written. -/
def Obligations.CreateEmptyIsInvalidArgument : Prop :=
  ∀ s : State, exec (.create 0) s =
    .next { s with engine := { s.engine with
      rspStatus := 1, rspData := 0, rspValid := true, phase := .resp } }

/-- R91: the header step of a `CREATE` whose count is in range. -/
def Obligations.CreateInRangeStartsLoading : Prop :=
  ∀ (s : State) (n : Nat), 1 ≤ n → n ≤ 256 →
    ∃ t, exec (.create n) s = .next t ∧
      t = { s with engine := { s.engine with
        valid := false, N := t.engine.N, j := 0, phase := .load } } ∧
      t.engine.N.toNat = n

/-- R94: a `CREATE` whose count is above the capacity. Its header step writes `rem` and the phase
and nothing else; each payload word is dropped whole, whatever its bits, and counts `rem` down; the
last one raises CAPACITY and writes nothing else. -/
def Obligations.OverCapacityCreateDropsItsPayload : Prop :=
  (∀ (s : State) (n : Nat), 256 < n → n < 2 ^ 16 →
    ∃ t, exec (.create n) s = .next t ∧
      t = { s with engine := { s.engine with rem := t.engine.rem, phase := .discard } } ∧
      t.engine.rem.toNat = n) ∧
  (∀ (s : State) (w : BitVec Config.default.cmdw) (rest : List HostMove),
    s.engine.phase = .discard → s.script = .word w :: rest →
    ∃ t, step s = .next t ∧
      (if 1 < s.engine.rem.toNat then
        t = { s with engine := { s.engine with rem := t.engine.rem }, script := rest } ∧
        t.engine.rem.toNat = s.engine.rem.toNat - 1
      else
        t = { s with
          engine := { s.engine with
            rspStatus := 2, rspData := 0, rspValid := true, phase := .resp }
          script := rest }))

/-- R101: the header step of a `PROC`, with a filter and without. -/
def Obligations.ProcHeaderLatchesOrAnswersNoFilter : Prop :=
  ∀ (s : State) (x : Nat), x < 2 ^ 16 →
    (s.engine.valid = true → ∃ t, exec (.proc x) s = .next t ∧
      t = { s with engine := { s.engine with xin := t.engine.xin, phase := .write } } ∧
      t.engine.xin.toNat = x) ∧
    (s.engine.valid = false → exec (.proc x) s =
      .next { s with engine := { s.engine with
        rspStatus := 3, rspData := 0, rspValid := true, phase := .resp } })

/-- R77: each reserved header answers ILLEGAL_COMMAND, its data ignored and nothing but the
response register (and the phase that offers it) written; the one word is consumed, and once the
response is taken the next word meets an engine that waits for a header. -/
def Obligations.ReservedHeadersAreIllegalCommands : Prop :=
  (∀ (s : State) (d : Nat),
    exec (.rsvd0 d) s = .next { s with engine := { s.engine with
      rspStatus := 4, rspData := 0, rspValid := true, phase := .resp } } ∧
    exec (.rsvd3 d) s = .next { s with engine := { s.engine with
      rspStatus := 4, rspData := 0, rspValid := true, phase := .resp } }) ∧
  (∀ (s : State) (w : BitVec Config.default.cmdw) (rest : List HostMove),
    s.engine.phase = .idle → s.script = .word w :: .take :: rest →
    opField Config.default.dw w = 0 ∨ opField Config.default.dw w = 3 →
    s.run 2 = .next { s with
      engine := { s.engine with
        rspStatus := 4, rspData := 0, rspValid := false, phase := .idle }
      script := rest
      taken := s.taken ++ [(4 : BitVec 3) ++ (0 : BitVec Config.default.aw)] })

/-- Derived from R82, R146: the frame of every header step: no cell of either memory, no cursor, no
accumulator and nothing of the host's side changes; the other elements change only where the spec's
dispatch writes them. -/
def Obligations.HeaderStepFrame : Prop :=
  ∀ (i : Instr) (s t : State), exec i s = .next t →
    t.script = s.script ∧ t.taken = s.taken ∧
    (∀ k, t.engine.coef.read k = s.engine.coef.read k ∧ t.engine.hist.read k = s.engine.hist.read k) ∧
    t.engine.wc = s.engine.wc ∧ t.engine.acc = s.engine.acc ∧
    ((∃ n, i = .create n ∧ 1 ≤ n ∧ n ≤ 256) ∨
      (t.engine.valid = s.engine.valid ∧ t.engine.N = s.engine.N ∧ t.engine.j = s.engine.j)) ∧
    ((∃ n, i = .create n ∧ 256 < n) ∨ t.engine.rem = s.engine.rem) ∧
    ((∃ x, i = .proc x ∧ s.engine.valid = true) ∨ t.engine.xin = s.engine.xin) ∧
    (t.engine.phase = .resp ∨ (t.engine.rspValid = s.engine.rspValid ∧
      t.engine.rspStatus = s.engine.rspStatus ∧ t.engine.rspData = s.engine.rspData))

/-! ## Whole commands: `exec` of the header, then the steps that complete it -/

/-- R90: the whole effect of `CREATE` with the `n` payload words `ws`. In range, its header step
answers a next state and the `n` steps in which its payload words are accepted end with the new
filter, whatever was there before: each coefficient in its cell, a history of zeros, the cursor at
0, the response OK:0. Empty or above the capacity, the filter there was is unchanged, and the
response is INVALID_ARGUMENT:0 at once, or CAPACITY:0 when all payload words have been dropped. -/
def Obligations.CreateCompletes : Prop :=
  ∀ (s : State) (ws : List (BitVec Config.default.cmdw)) (rest : List HostMove),
    ws.length < 2 ^ 16 → s.script = ws.map HostMove.word ++ rest →
    ∃ t u, exec (.create ws.length) s = .next t ∧ t.run ws.length = .next u ∧
      u.script = rest ∧ u.taken = s.taken ∧ u.engine.phase = .resp ∧ u.engine.rspValid = true ∧
      (if ws.length = 0 then
        u.engine.rspWord = Response.word ⟨.invalidArgument, 0⟩ ∧ u.engine.filter = s.engine.filter
      else if 256 < ws.length then
        u.engine.rspWord = Response.word ⟨.capacity, 0⟩ ∧ u.engine.filter = s.engine.filter
      else
        u.engine.rspWord = Response.word ⟨.ok, 0⟩ ∧
        u.engine.valid = true ∧ u.engine.N.toNat = ws.length ∧ u.engine.wc = 0 ∧
        (∀ (i : Nat) (h : i < ws.length),
          u.engine.coef.read i = some (coefOperand Config.default ws[i]) ∧
          u.engine.hist.read i = some 0))

/-- R100: the whole effect of `PROC x`. With a filter its header step answers a next state, and the
`N + 2` steps that follow, whatever word or readiness the host offers meanwhile, end with the
sample stored, the cursor advanced, `coef`, `N` and `valid` as they were, and the response OK and
the encoding of the sum. Without one the response is NO_FILTER:0 at once and nothing else changes. -/
def Obligations.ProcCompletes : Prop :=
  ∀ (s : State) (x : BitVec Config.default.sw), s.Inv → s.engine.phase = .idle →
    s.quiet = true →
    (s.engine.valid = true →
      ∃ t u f, exec (.proc x.toNat) s = .next t ∧ s.engine.filter = some f ∧
        t.run (f.taps + 2) = .next u ∧
        u.script = s.script ∧ u.taken = s.taken ∧
        u.engine.phase = .resp ∧ u.engine.rspValid = true ∧ u.engine.rspStatus = 0 ∧
        u.engine.rspData = twos 40 (f.intOutput x) ∧
        u.engine.filter = some (f.proc x) ∧
        u.engine.coef = s.engine.coef ∧ u.engine.N = s.engine.N ∧ u.engine.valid = true) ∧
    (s.engine.valid = false →
      exec (.proc x.toNat) s = .next { s with engine := { s.engine with
        rspStatus := 3, rspData := 0, rspValid := true, phase := .resp } })

/-- Derived from R100, R110, R117 to R120: what the output is in INT,
written out: the exact sum of the products of coefficient `j` and the sample of age `j`, the newest
sample being the one just stored. -/
def Obligations.OutputIsTheConvolutionSum : Prop :=
  ∀ (nmax sw cw aw : Nat) (f : Filter (Config.int nmax sw cw aw)) (x : BitVec sw),
    f.intOutput x =
      ∑ j ∈ Finset.range f.taps,
        (f.coef.getD j 0).toInt *
          ((f.hist.set f.wc x).getD (readIndex f.wc j f.taps) 0).toInt

/-- Derived from R175 and R106: after the header of a `PROC` with a filter of `N` taps the engine
is in WRITE, then in MAC `N` times with `j` running from 0 to `N - 1`, then in ADV, and only then
in RESP: one buffer write, `N` multiply-accumulate steps, one advance. -/
def Obligations.ProcTakesExactlyNPlusTwoSteps : Prop :=
  ∀ (c : Config) (d : Nat) (e : Engine c) (k : Nat), e.Inv → e.phase = .write →
    k ≤ e.N.toNat + 2 →
    ∃ e', e.ownSteps d k = .ok e' ∧
      e'.phase = (if k = 0 then .write else if k ≤ e.N.toNat then .mac
        else if k = e.N.toNat + 1 then .adv else .resp) ∧
      (1 ≤ k → k ≤ e.N.toNat + 1 → e'.j.toNat = k - 1)

/-- The spec's own inference R98 ("derived"), for every configuration and every count that the
header can carry: giving the engine in phase IDLE the `1 + n` words of a `CREATE` ends in phase
RESP with the response and the filter of R90: the new filter and OK:0 in range, else the filter
there was and INVALID_ARGUMENT:0 or CAPACITY:0. -/
def Obligations.CreateStepsRealiseTheCommand : Prop :=
  ∀ (c : Config) (d : Nat) (draw : BitVec 53) (e : Engine c) (cs : List (BitVec c.cw)),
    e.phase = .idle → (Command.create cs).wf = true →
    ∃ e', Engine.give d (Command.words (.create cs)) e = .ok e' ∧
      e'.phase = .resp ∧ e'.rspValid = true ∧
      e'.rspWord = ((Command.create cs).run draw e.filter).2.word ∧
      e'.filter = ((Command.create cs).run draw e.filter).1

/-- The spec's own inference R111 ("derived"): a `PROC` given to an engine in phase IDLE. With a
filter, in every configuration whose running totals survive their encoding (R115; INT and F64 are
such), the header step and `N + 2` steps of the engine's own have the effect of R100; the last MAC
step, the `N`-th, draws the bits of a not-a-number, should the output be one (R128; that a draw has
the index of its edge is the model's choice, log 11). Without a filter, in every configuration, the
header step alone has it. -/
def Obligations.ProcStepsRealiseTheCommand : Prop :=
  ∀ (c : Config) (d : Nat) (e : Engine c) (x : BitVec c.sw), e.phase = .idle →
    (c.num.Faithful → e.Inv → e.valid = true →
      ∃ e1 e2 f, e.filter = some f ∧
        Engine.give d (Command.words (.proc x)) e = .ok e1 ∧
        e1.ownSteps (d + 1) (f.taps + 2) = .ok e2 ∧
        e2.phase = .resp ∧ e2.rspValid = true ∧
        e2.rspWord =
          Response.word ⟨.ok, c.num.encA (Config.freeNan (d + 1 + f.taps)) (f.output x)⟩ ∧
        e2.filter = some (f.proc x)) ∧
    (e.valid = false →
      ∃ e1, Engine.give d (Command.words (.proc x)) e = .ok e1 ∧
        e1.phase = .resp ∧ e1.rspValid = true ∧
        e1.rspWord = Response.word ⟨.noFilter, 0⟩ ∧ e1.filter = none)

/-- Derived from R62, R83, R176; the host's script and the responses in the state are the model's
choice (logs 5, 6, 14): for every list of commands, the default machine started from reset with a
host that sends them one after another and takes each response ends in phase IDLE with nothing left
to do; the responses taken are, one per command and in order, those of the command-level functions,
and so is the filter at the end. -/
def Obligations.RunFromResetIsTheCommandLevelRun : Prop :=
  ∀ ks : List (Command Config.default), (∀ k ∈ ks, k.wf = true) →
    ∃ u, State.run (Command.stepsOfAll ks none)
        { State.reset with script := ks.flatMap Command.script } = .next u ∧
      u.engine.phase = .idle ∧ u.script = [] ∧
      u.taken = (Command.runAll 0 ks none).2.map Response.word ∧
      u.engine.filter = (Command.runAll 0 ks none).1

/-! ## Single moves of the engine -/

/-- R92, R93: the load step, in phase LOAD with `0 <= j < N <= NMAX`, in every configuration: what
an accepted payload word writes and what it leaves; on the default machine it is the step taken
when the host offers a word. -/
def Obligations.LoadStepEffect : Prop :=
  (∀ (c : Config) (draw : BitVec 53) (e : Engine c) (op : BitVec 2) (data : BitVec c.dw),
    e.phase = .load → e.j.toNat < e.N.toNat → e.N.toNat ≤ c.nmax →
    ∃ e', e.edge draw ⟨false, true, op ++ data, false⟩ = .ok e' ∧
      e'.coef.read e.j.toNat = some (data.setWidth c.cw) ∧
      e'.hist.read e.j.toNat = some c.num.zeroS ∧
      (∀ i, i ≠ e.j.toNat → i < e.N.toNat →
        e'.coef.read i = e.coef.read i ∧ e'.hist.read i = e.hist.read i) ∧
      e'.N = e.N ∧ e'.rem = e.rem ∧ e'.xin = e.xin ∧ e'.acc = e.acc ∧
      (if e.j.toNat + 1 < e.N.toNat then
        e'.j.toNat = e.j.toNat + 1 ∧ e'.phase = .load ∧ e'.wc = e.wc ∧ e'.valid = e.valid ∧
        e'.rspValid = e.rspValid ∧ e'.rspStatus = e.rspStatus ∧ e'.rspData = e.rspData ∧
        (∀ i, e.N.toNat ≤ i → e'.coef.read i = e.coef.read i ∧ e'.hist.read i = e.hist.read i)
      else
        e'.j = e.j ∧ e'.phase = .resp ∧ e'.wc = 0 ∧ e'.valid = true ∧
        e'.rspValid = true ∧ e'.rspStatus = 0 ∧ e'.rspData = 0)) ∧
  (∀ (s : State) (w : BitVec Config.default.cmdw) (rest : List HostMove),
    s.engine.phase = .load → s.script = .word w :: rest →
    s.engine.j.toNat < s.engine.N.toNat → s.engine.N.toNat ≤ 256 →
    ∃ e', s.engine.edge (Config.freeNan 0) ⟨false, true, w, false⟩ = .ok e' ∧
      step s = .next { s with engine := e', script := rest })

/-- R102: the write step, in phase WRITE, in every configuration: the one buffer write of the
command, at the cursor; every other cell of HIST and all of COEF are unchanged, and so is every
element the rule does not name. On the default machine it is the step taken, whatever word or
readiness the host offers. -/
def Obligations.WriteStepEffect : Prop :=
  (∀ (c : Config) (draw : BitVec 53) (e : Engine c), e.Inv → e.phase = .write →
    ∃ e', e.edge draw (Inputs.silent c) = .ok e' ∧
      e' = { e with
        hist := e'.hist, acc := c.num.encA draw c.num.zeroA, j := 0, phase := .mac } ∧
      (∀ i, e'.hist.read i = if i = e.wc.toNat then some e.xin else e.hist.read i)) ∧
  (∀ s : State, s.Inv → s.engine.phase = .write → s.quiet = true →
    ∃ t, step s = .next t ∧
      t = { s with engine := { s.engine with
        hist := t.engine.hist, acc := 0, j := 0, phase := .mac } } ∧
      (∀ i, t.engine.hist.read i =
        if i = s.engine.wc.toNat then some s.engine.xin else s.engine.hist.read i))

/-- R103: the MAC step, in phase MAC, in every configuration: the product of coefficient `j` and
the sample of age `j` is added to the accumulator, `j` goes up, the phase becomes ADV with the last
tap, and nothing else changes. On the default machine it is the step taken, whatever word or
readiness the host offers. -/
def Obligations.MacStepEffect : Prop :=
  (∀ (c : Config) (draw : BitVec 53) (e : Engine c), e.Inv → e.phase = .mac →
    ∃ (e' : Engine c) (k : BitVec c.cw) (h : BitVec c.sw),
      e.coef.read e.j.toNat = some k ∧
      e.hist.read (readIndex e.wc.toNat e.j.toNat e.N.toNat) = some h ∧
      e.edge draw (Inputs.silent c) = .ok e' ∧
      e' = { e with
        acc := c.num.encA draw
          (c.num.add (c.num.decA e.acc) (c.num.mul (c.num.decC k) (c.num.decS h)))
        j := e'.j
        phase := if e.j.toNat + 1 < e.N.toNat then .mac else .adv } ∧
      e'.j.toNat = e.j.toNat + 1) ∧
  (∀ s : State, s.Inv → s.engine.phase = .mac → s.quiet = true →
    ∃ e', s.engine.edge (Config.freeNan 0) (Inputs.silent Config.default) = .ok e' ∧
      step s = .next { s with engine := e' })

/-- R104: the advance step, in phase ADV, in every configuration: the cursor moves up by one modulo
N (with one tap it stays 0) and the accumulator is the data of an OK response; nothing else
changes. On the default machine it is the step taken, whatever word or readiness the host offers. -/
def Obligations.AdvStepEffect : Prop :=
  (∀ (c : Config) (draw : BitVec 53) (e : Engine c), e.Inv → e.phase = .adv →
    ∃ e', e.edge draw (Inputs.silent c) = .ok e' ∧
      e' = { e with
        wc := e'.wc, rspStatus := 0, rspData := e.acc, rspValid := true, phase := .resp } ∧
      e'.wc.toNat = (if e.wc.toNat + 1 < e.N.toNat then e.wc.toNat + 1 else 0) ∧
      (e.N.toNat = 1 → e'.wc = 0)) ∧
  (∀ s : State, s.Inv → s.engine.phase = .adv → s.quiet = true →
    ∃ e', s.engine.edge (Config.freeNan 0) (Inputs.silent Config.default) = .ok e' ∧
      step s = .next { s with engine := e' })

/-- R87: taking the response:
`rsp_valid` is cleared, the engine is in phase IDLE, nothing else of it changes, and the host has
the response word. While the host neither takes the response nor resets, the engine stays in RESP,
changes nothing and takes no command word. -/
def Obligations.TakeResponseEffect : Prop :=
  (∀ (s : State) (rest : List HostMove), s.engine.phase = .resp → s.engine.rspValid = true →
    s.script = .take :: rest →
    step s = .next { s with
      engine := { s.engine with rspValid := false, phase := .idle }
      script := rest
      taken := s.taken ++ [s.engine.rspStatus ++ s.engine.rspData] }) ∧
  (∀ s : State, s.engine.phase = .resp →
    (∀ rest, s.script ≠ .take :: rest ∧ s.script ≠ .reset :: rest) →
    ∃ t, step s = .next t ∧ t.engine = s.engine ∧ t.taken = s.taken ∧
      ∀ w rest, s.script = .word w :: rest → t.script = s.script)

/-- R165: an edge with `rst = 1` sets `valid`, `phase` and `rsp_valid` whatever the phase and
whatever the other inputs, in every configuration, and neither a word nor a response is transferred
at it; on the machine it is the step that a reset of the host makes, and it may be held for any
number of edges. -/
def Obligations.ResetOutranksEverything : Prop :=
  (∀ (c : Config) (draw : BitVec 53) (e : Engine c) (i : Inputs c), i.rst = true →
    ∃ e', e.edge draw i = .ok e' ∧ e'.valid = false ∧ e'.phase = .idle ∧ e'.rspValid = false ∧
      e.transferred i = none ∧ i.givesWord e.phase = false) ∧
  (∀ (s : State) (k : Nat) (rest : List HostMove),
    s.script = List.replicate (k + 1) HostMove.reset ++ rest →
    ∃ t, s.run (k + 1) = .next t ∧ t.script = rest ∧ t.taken = s.taken ∧
      t.engine.valid = false ∧ t.engine.phase = .idle ∧ t.engine.rspValid = false)

/-- R44: `cmd_ready` is 1 in IDLE, LOAD and DISCARD and 0 in the other phases, and a word at the
head of the host's script is taken at a step exactly when it is 1; otherwise it waits unchanged. -/
def Obligations.WordIsTakenExactlyWhenReady : Prop :=
  (∀ (c : Config) (e : Engine c), e.outputs.cmdReady = true ↔
    e.phase = .idle ∨ e.phase = .load ∨ e.phase = .discard) ∧
  (∀ (s t : State) (w : BitVec Config.default.cmdw) (rest : List HostMove),
    s.script = .word w :: rest → step s = .next t →
    t.script =
      (if s.engine.phase = .idle ∨ s.engine.phase = .load ∨ s.engine.phase = .discard then rest
        else s.script))

/-- Derived from R174, R43 and the spec's own inference R158; that a hold is a step in which
nothing changes is the model's choice (log 7): without a word in IDLE, LOAD or DISCARD the engine
waits without limit: however many steps are taken while the host offers no word and does not reset,
nothing at all changes. -/
def Obligations.EngineWaitsForWords : Prop :=
  ∀ (s : State) (k : Nat), s.engine.rspValid = false →
    s.engine.phase = .idle ∨ s.engine.phase = .load ∨ s.engine.phase = .discard →
    (s.script = [] ∨ ∃ rest, s.script = .take :: rest) →
    s.run k = .next s

/-- The spec's own inference R178 ("derived"): an edge makes only a move enabled in its phase; it
makes one of the engine's own, the same whatever the host does short of reset, exactly in WRITE,
MAC and ADV. -/
def Obligations.EdgesMakeOnlyEnabledMoves : Prop :=
  ∀ (c : Config) (i i' : Inputs c) (p : Phase),
    (∀ m, i.move p = some m → m.enabledIn p = true) ∧
    (i.rst = false → i'.rst = false → (p = .write ∨ p = .mac ∨ p = .adv) →
      i.move p = i'.move p ∧ (i.move p).isSome = true) ∧
    (p ≠ .write → p ≠ .mac → p ≠ .adv → (Inputs.silent c).move p = none)

/-- Derived from R43, R82, and the spec's own inference R178, with the model's choices of logs 6
and 8: a step of the machine is one edge of its engine under the ports the host drives, so what
`exec` does for a header is what the step relation does. -/
def Obligations.StepIsAnEdgeOfTheEngine : Prop :=
  ∀ s : State, step s = s.hostPart.withEngine (s.engine.edge (Config.freeNan 0) s.offer)

/-! ## Invariants -/

/-- Derived from R165 and the model's reset values (logs 1, 2): the reset state meets the
invariant. -/
def Obligations.ResetMeetsTheInvariant : Prop :=
  State.reset.Inv ∧ ∀ c : Config, (Engine.reset c).Inv

/-- Derived from R23, R24, R27, R28, R31, R81, R140; that cells outside the filter hold no value is
the model's choice (log 4): the invariant is kept by every step of the machine. -/
def Obligations.EveryStepKeepsTheInvariant : Prop :=
  ∀ s t : State, s.Inv → step s = .next t → t.Inv

/-- Derived from the same rules: the invariant is kept by every edge of an engine of any
configuration, whatever its ports carry. -/
def Obligations.EveryEdgeKeepsTheInvariant : Prop :=
  ∀ (c : Config) (draw : BitVec 53) (i : Inputs c) (e e' : Engine c),
    e.Inv → e.edge draw i = .ok e' → e'.Inv

/-- The spec's own inferences R60, R158, R167 ("derived"), over the model's faults (logs 2, 12):
from a state that meets the invariant no step faults and none is refused. -/
def Obligations.NoStepStopsTheMachine : Prop :=
  (∀ s : State, s.Inv → ∃ t, step s = .next t) ∧
  (∀ (c : Config) (draw : BitVec 53) (i : Inputs c) (e : Engine c), e.Inv →
    ∃ e', e.edge draw i = .ok e')

/-- Derived from R166 and the spec's own inference R167: nothing unspecified is read. Two engines
that agree on every element that has a specified value in their phase still do after an edge with
the same inputs, and drive the same outputs, the response word while it is offered. So no claim
about the ports can rest on the values the model gives unspecified elements (logs 1, 3, 4, 20). -/
def Obligations.UnspecifiedElementsAreNeverRead : Prop :=
  ∀ (c : Config) (draw : BitVec 53) (i : Inputs c) (e e' : Engine c),
    e.Inv → e'.Inv → e.Same e' →
    (∃ f f', e.edge draw i = .ok f ∧ e'.edge draw i = .ok f' ∧ f.Same f') ∧
    e.outputs.cmdReady = e'.outputs.cmdReady ∧ e.outputs.rspValid = e'.outputs.rspValid ∧
    (e.outputs.rspValid = true → e.outputs.rspWord = e'.outputs.rspWord)

/-- The spec's own inference R96 ("derived"), over the lifetime of R97: while a filter lives its
tap count and its coefficients do not change. -/
def Obligations.TapsAndCoefficientsAreImmutable : Prop :=
  ∀ (c : Config) (draw : BitVec 53) (i : Inputs c) (e e' : Engine c), e.Inv →
    e.edge draw i = .ok e' → e.valid = true → e'.valid = true →
    e'.N = e.N ∧ ∀ k, e'.coef.read k = e.coef.read k

/-- Derived from R55, R102, R104: while a filter lives no sample moves: an edge leaves every
history cell as it is but the one at the cursor, and that one too in every phase but WRITE; the
cursor moves in ADV only. -/
def Obligations.HistoryIsNeverShifted : Prop :=
  ∀ (c : Config) (draw : BitVec 53) (i : Inputs c) (e e' : Engine c), e.Inv →
    e.edge draw i = .ok e' → e.valid = true → e'.valid = true →
    (∀ k, k ≠ e.wc.toNat ∨ e.phase ≠ .write → e'.hist.read k = e.hist.read k) ∧
    (e.phase ≠ .adv → e'.wc = e.wc)

/-! ## Indices -/

/-- R15: `a mod N` is the unique number in `0..N-1` that differs from `a` by a multiple of `N`, and
the two uses of it, the read index and the cursor advance, in closed form. -/
def Obligations.ModuloIsTheSpecsModulo : Prop :=
  (∀ (a : Int) (n : Nat), 1 ≤ n →
    modN a n < n ∧ (n : Int) ∣ a - modN a n ∧
    ∀ r : Nat, r < n → (n : Int) ∣ a - r → r = modN a n) ∧
  (∀ n a j : Nat, a < n → j < n →
    readIndex a j n = (if j ≤ a then a - j else a + n - j) ∧
    nextCursor a n = (if a + 1 < n then a + 1 else 0))

/-- The spec's own inference R59 ("derived"): the wrapping read pointer, stepped `j` times from the
cursor, is the circular index. -/
def Obligations.ReadPointerIsTheCircularIndex : Prop :=
  ∀ n wc j : Nat, wc < n → j ≤ n → readPointer wc n j = readIndex wc j n

/-! ## The filter -/

/-- Derived from R33 and the spec's own inference R34: after `k` samples the cursor is `k mod N`,
and the cell `a` places behind it holds the sample of age `a`, or zero if fewer have been
processed. -/
def Obligations.HistoryHoldsTheRecentSamples : Prop :=
  ∀ (c : Config) (cs : List (BitVec c.cw)) (xs : List (BitVec c.sw)), 1 ≤ cs.length →
    ((Filter.create cs).procAll xs).wc = xs.length % cs.length ∧
    ((Filter.create cs).procAll xs).coef = cs ∧
    ((Filter.create cs).procAll xs).hist.length = cs.length ∧
    ∀ a, 1 ≤ a → a ≤ cs.length →
      ((Filter.create cs).procAll xs).hist[readIndex (xs.length % cs.length) a cs.length]? =
        some (if a ≤ xs.length then xs.getD (xs.length - a) 0 else c.num.zeroS)

/-- The spec's own inference R112 ("derived"), with R108: the `k`-th output of a lifetime is the
convolution of the coefficients with the samples so far, a sample before the first counting as
zero. -/
def Obligations.OutputsAreTheConvolution : Prop :=
  ∀ (c : Config) (cs : List (BitVec c.cw)) (xs : List (BitVec c.sw)) (k : Nat), 1 ≤ cs.length →
    1 ≤ k → k ≤ xs.length →
    ((Filter.create cs).outputs xs)[k - 1]? = some (convolution c cs xs k cs.length)

/-- The spec's own inferences R113 P1 and R129 P1 ("derived"): the unit impulse is answered with the
coefficients in order. In INT exactly; SW is at least 2, so that the sample 1 exists. In F64
(presumed, log 10), if every coefficient is finite, with the coefficients' own bits, but that `-0` is
answered with `+0`; and a coefficient that is an infinity or a not-a-number makes every output at
which it meets a zero sample a not-a-number. At the one output where it meets the sample 1.0 and no
other such coefficient meets a zero, the output is that coefficient (R127; there R129 says otherwise,
and following R127 is the model's choice, log 21). -/
def Obligations.ImpulseResponseIsTheCoefficients : Prop :=
  (∀ (nmax sw cw aw : Nat) (cs : List (BitVec cw)), 2 ≤ sw → 1 ≤ cs.length →
    (Filter.create (c := Config.int nmax sw cw aw) cs).intOutputs
      (BitVec.ofNat sw 1 :: List.replicate (cs.length - 1) 0) = cs.map (fun b => b.toInt)) ∧
  (∀ (nmax : Nat) (cs : List (BitVec 64)) (k : Nat) (h : k < cs.length), ∃ y : F64,
    ((Filter.create (c := Config.f64 nmax) cs).f64Outputs
      (0x3FF0000000000000#64 :: List.replicate (cs.length - 1) 0))[k]? = some y ∧
    ((∀ b ∈ cs, (F64.decode b).isFinite = true) → ∀ draw,
      F64.encode draw y = if cs[k] = 0x8000000000000000#64 then 0 else cs[k]) ∧
    ((∃ i, i < cs.length ∧ i ≠ k ∧ (F64.decode (cs.getD i 0)).isFinite = false) → y = .nan) ∧
    ((∀ i, i < cs.length → i ≠ k → (F64.decode (cs.getD i 0)).isFinite = true) →
      (F64.decode cs[k]).isFinite = false → y = F64.decode cs[k]))

/-- The spec's own inference R113 P2 ("derived"), in INT: linearity, exact, where every combined
sample is representable. -/
def Obligations.ProcessingIsLinear : Prop :=
  ∀ (nmax sw cw aw : Nat) (cs : List (BitVec cw)) (p q : Int) (as bs xs : List (BitVec sw)),
    1 ≤ cs.length → as.length = xs.length → bs.length = xs.length →
    (∀ i, i < xs.length →
      (xs.getD i 0).toInt = p * (as.getD i 0).toInt + q * (bs.getD i 0).toInt) →
    ∀ i, i < xs.length → ∃ a b y : Int,
      ((Filter.create (c := Config.int nmax sw cw aw) cs).intOutputs as)[i]? = some a ∧
      ((Filter.create (c := Config.int nmax sw cw aw) cs).intOutputs bs)[i]? = some b ∧
      ((Filter.create (c := Config.int nmax sw cw aw) cs).intOutputs xs)[i]? = some y ∧
      y = p * a + q * b

/-- The spec's own inference R113 P3 ("derived"), in INT: a stream behind `d` zeros gives `d` zeros
and then the stream's own outputs. -/
def Obligations.ProcessingIsTimeInvariant : Prop :=
  ∀ (nmax sw cw aw : Nat) (cs : List (BitVec cw)) (d : Nat) (xs : List (BitVec sw)),
    1 ≤ cs.length →
    (Filter.create (c := Config.int nmax sw cw aw) cs).intOutputs (List.replicate d 0 ++ xs) =
      List.replicate d 0 ++ (Filter.create (c := Config.int nmax sw cw aw) cs).intOutputs xs

/-- The spec's own inference R113 P4 ("derived"), in INT: zero in, zero out. -/
def Obligations.ZeroInZeroOut : Prop :=
  ∀ (nmax sw cw aw : Nat) (cs : List (BitVec cw)) (m : Nat), 1 ≤ cs.length →
    (Filter.create (c := Config.int nmax sw cw aw) cs).intOutputs (List.replicate m 0) =
      List.replicate m 0

/-- Derived from R107, R146 and the spec's own inference R113 P5: from the same filter, the OK
responses of a list of commands that creates no new one are those of its samples alone, whatever
erring commands and reserved headers stand between them; and those leave no trace in the filter. -/
def Obligations.OutputsDependOnFilterAndSamplesOnly : Prop :=
  ∀ (d : Nat) (ks : List (Command Config.default)) (f : Filter Config.default),
    (∀ k ∈ ks, k.keepsFilter = true) →
    (((Command.runAll d ks (some f)).2.filter (fun r => decide (r.status = .ok))).map
        (fun r => r.data)) = (f.intOutputs (Command.samples ks)).map (twos 40) ∧
    (Command.runAll d ks (some f)).1 = some (f.procAll (Command.samples ks))

/-! ## Number systems -/

/-- R119: the product of a coefficient and a sample in INT is exact; its magnitude is at most
`2^(SW+CW-2)`, reached only by the two most negative operands; and the extremes of the default
widths. -/
def Obligations.ProductIsExactAndBounded : Prop :=
  (∀ (sw cw aw : Nat) (k : BitVec cw) (h : BitVec sw), 1 ≤ sw → 1 ≤ cw →
    intProduct aw k h = k.toInt * h.toInt ∧
    |intProduct aw k h| ≤ 2 ^ (sw + cw - 2) ∧
    (|intProduct aw k h| = 2 ^ (sw + cw - 2) ↔
      k.toInt = -2 ^ (cw - 1) ∧ h.toInt = -2 ^ (sw - 1))) ∧
  intProduct 40 (0x8000 : BitVec 16) (0x8000 : BitVec 16) = 1073741824 ∧
  intProduct 40 (0x8000 : BitVec 16) (0x7FFF : BitVec 16) = -1073709056 ∧
  intProduct 40 (0x7FFF : BitVec 16) (0x7FFF : BitVec 16) = 1073676289

/-- The spec's own inference R121 ("derived"): in every INT configuration of this hardware every
running total lies in the range of R117, so its encoding loses nothing. -/
def Obligations.RunningTotalsNeverOverflow : Prop :=
  ∀ (nmax sw cw aw : Nat) (f : Filter (Config.int nmax sw cw aw)) (k : Nat),
    Config.intWf nmax sw cw aw = true → f.taps ≤ nmax → k ≤ f.taps →
    -(2 : Int) ^ (aw - 1) ≤ f.intTotal k ∧ f.intTotal k < (2 : Int) ^ (aw - 1) ∧
    signed aw (twos aw (f.intTotal k)) = f.intTotal k

/-- The spec's own inference R122 ("derived"), in every INT configuration of this hardware: in bits
a MAC step adds the sign-extended product, modulo 2^AW. -/
def Obligations.MacIsBitwiseAddOfProduct : Prop :=
  ∀ (nmax sw cw aw : Nat) (draw : BitVec 53) (acc : BitVec aw) (k : BitVec cw) (h : BitVec sw),
    Config.intWf nmax sw cw aw = true →
    macSum (Config.int nmax sw cw aw) draw acc k h =
      acc + (k.signExtend (sw + cw) * h.signExtend (sw + cw)).signExtend aw

/-- Derived from R115, R125, R128; binary64 is presumed (log 10) and the draw of a not-a-number is
the model's form of R128 (log 11): in F64 every value survives its encoding, every not-a-number
encoding can be drawn, and whatever is drawn is one. -/
def Obligations.F64EncodingsAreFaithful : Prop :=
  Num.f64.RoundTrip ∧
  (∀ b : BitVec 64, F64.decode b ≠ .nan → ∀ draw, F64.encode draw (F64.decode b) = b) ∧
  (∀ b : BitVec 64, F64.decode b = .nan → ∃ draw, F64.encode draw .nan = b)

/-- Derived from R127 and R128, which the spec supplies from general knowledge (log 10):
infinities, zeros and invalid operations in F64. -/
def Obligations.F64SpecialValues : Prop :=
  (∀ (a b : Bool) (m : Fin finiteMagnitudes), m.val ≠ 0 →
    F64.mul (.inf a) (.fin b m) = .inf (a ^^ b) ∧ F64.mul (.fin b m) (.inf a) = .inf (b ^^ a)) ∧
  (∀ a b : Bool, F64.mul (.inf a) (F64.zero b) = .nan ∧ F64.mul (F64.zero b) (.inf a) = .nan) ∧
  (∀ a : Bool, F64.add (.inf a) (.inf (!a)) = .nan) ∧
  (∀ (a : Bool) (m : Fin finiteMagnitudes),
    F64.add (.fin a m) (.fin (!a) m) = F64.zero false) ∧
  (∀ x : F64, F64.add x .nan = .nan ∧ F64.add .nan x = .nan ∧
    F64.mul x .nan = .nan ∧ F64.mul .nan x = .nan)

/-- The spec's own inference at the end of R127 ("derived"; log 10): a running total in F64 is
never `-0`. -/
def Obligations.F64TotalsAreNeverNegativeZero : Prop :=
  ∀ (nmax : Nat) (f : Filter (Config.f64 nmax)) (k : Nat),
    f.f64Total k ≠ F64.zero true

/-- Derived from R128, which the spec supplies from general knowledge (log 10): once a running
total in F64 is a not-a-number it stays one to the end of the command. -/
def Obligations.F64NotANumberPersists : Prop :=
  ∀ (nmax : Nat) (f : Filter (Config.f64 nmax)) (k n : Nat), k ≤ n →
    f.f64Total k = .nan → f.f64Total n = .nan

/-- Derived from R125 and R126, which the spec supplies from general knowledge (log 10): the
magnitude a pattern of exponent `x` and fraction `f` stands for, in units of `2^-1074`; the product
of two finite data is their exact product, and the sum their exact sum, each rounded once to
nearest with ties to even, with gradual underflow and overflow to infinity; an exact zero sum is
`+0` unless both operands are negative. -/
def Obligations.F64RoundsToNearestEven : Prop :=
  (∀ x f : Nat, f < 2 ^ 52 →
    unitsOf (x * 2 ^ 52 + f) = if x = 0 then f else (2 ^ 52 + f) * 2 ^ (x - 1)) ∧
  (∀ (a b : Bool) (m n : Fin finiteMagnitudes),
    F64.IsRounded (a ^^ b) (unitsOf m.val * unitsOf n.val) 1074
      (F64.mul (.fin a m) (.fin b n))) ∧
  (∀ (a b : Bool) (m n : Fin finiteMagnitudes) (s : Int),
    s = (if a then -(unitsOf m.val : Int) else unitsOf m.val) +
      (if b then -(unitsOf n.val : Int) else unitsOf n.val) →
    (s ≠ 0 → F64.IsRounded (decide (s < 0)) s.natAbs 0 (F64.add (.fin a m) (.fin b n))) ∧
    (s = 0 → F64.add (.fin a m) (.fin b n) = F64.zero (a && b)))

/-! ## The document's entity -/

/-- The spec's own inference R35 ("derived"): while `valid = 1` the engine stands for the triple of
its decoded coefficients, its decoded history and its cursor, each sequence of length N, and while
`valid = 0` for no filter. -/
def Obligations.EngineStandsForTheDecodedTriple : Prop :=
  ∀ (c : Config) (e : Engine c), e.Inv →
    (e.valid = false → e.firFilter = none) ∧
    (e.valid = true → ∃ t, e.firFilter = some t ∧
      t.coefficients.length = e.N.toNat ∧ t.history.length = e.N.toNat ∧
      t.writeCursor = e.wc.toNat ∧
      ∀ i, i < e.N.toNat → ∃ k h, e.coef.read i = some k ∧ e.hist.read i = some h ∧
        t.coefficients[i]? = some (c.num.decC k) ∧ t.history[i]? = some (c.num.decS h))
end

