-- ==== Sys2Proof/Laws/Bits.lean ====
section
/-! SUPPORT. Two's complement and indices modulo the tap count: the model's own definitions in terms
of the library's, and the small facts proofs cite. -/

namespace Sys2Proof.Machine

theorem signed_eq_toInt (w : Nat) (b : BitVec w) : signed w b = b.toInt := by
  unfold signed BitVec.toInt
  push_cast
  rfl

theorem twos_eq_ofInt (w : Nat) (v : Int) : twos w v = BitVec.ofInt w v := by
  apply BitVec.eq_of_toNat_eq
  have hpos : (0 : Int) < 2 ^ w := by positivity
  have h1 := Int.emod_nonneg v (ne_of_gt hpos)
  have h2 := Int.emod_lt_of_pos v hpos
  rw [twos, BitVec.toNat_ofNat, BitVec.toNat_ofInt, Nat.mod_eq_of_lt]
  · push_cast
    rfl
  · zify
    rw [Int.toNat_of_nonneg h1]
    exact h2

/-- A number in the range of two's complement survives its encoding (R14). -/
theorem signed_twos {w : Nat} (hw : 1 ≤ w) {v : Int} (h1 : -(2 ^ (w - 1)) ≤ v)
    (h2 : v < 2 ^ (w - 1)) : signed w (twos w v) = v := by
  rw [signed_eq_toInt, twos_eq_ofInt, BitVec.toInt_ofInt]
  obtain ⟨k, rfl⟩ : ∃ k, w = k + 1 := ⟨w - 1, by omega⟩
  simp only [Nat.add_sub_cancel] at h1 h2
  have e : (2 ^ (k + 1) : Nat) = 2 * 2 ^ k := by ring
  rw [Int.bmod_eq_of_le]
  · rw [e]; push_cast; omega
  · rw [e]; push_cast; omega

theorem modN_lt (a : Int) {n : Nat} (h : 1 ≤ n) : modN a n < n := by
  have hn : (0 : Int) < n := by exact_mod_cast h
  have h1 := Int.emod_nonneg a (ne_of_gt hn)
  have h2 := Int.emod_lt_of_pos a hn
  unfold modN
  omega

theorem cast_modN (a : Int) {n : Nat} (h : 1 ≤ n) : (modN a n : Int) = a % n := by
  have hn : (0 : Int) < n := by exact_mod_cast h
  exact Int.toNat_of_nonneg (Int.emod_nonneg a (ne_of_gt hn))

theorem readIndex_lt (wc j : Nat) {n : Nat} (h : 1 ≤ n) : readIndex wc j n < n := modN_lt _ h

theorem nextCursor_lt (wc : Nat) {n : Nat} (h : 1 ≤ n) : nextCursor wc n < n := modN_lt _ h

/-- The widths hold what they are for (R10). -/
theorem lt_two_pow_clog2 {m n : Nat} (h : m < n) : m < 2 ^ clog2 n := by
  unfold clog2
  split
  · simp only [pow_zero]; omega
  · have : n - 1 < 2 ^ ((n - 1).log2 + 1) := Nat.lt_log2_self
    omega

theorem toNat_one {w : Nat} (h : 1 < 2 ^ w) : (1 : BitVec w).toNat = 1 := by
  change (BitVec.ofNat w 1).toNat = 1
  rw [BitVec.toNat_ofNat, Nat.mod_eq_of_lt h]

/-- A counter below a bound its width holds does not wrap when it advances (R27, R39). -/
theorem toNat_succ_of_lt {w : Nat} {a b : BitVec w} (h : a.toNat < b.toNat) :
    (a + 1).toNat = a.toNat + 1 := by
  have hb := b.isLt
  have h1 := toNat_one (w := w) (by omega)
  rw [BitVec.toNat_add, h1, Nat.mod_eq_of_lt (by omega)]

/-- A counter that is not 0 does not wrap when it goes down (R28). -/
theorem toNat_pred_of_pos {w : Nat} {a : BitVec w} (h : 1 < a.toNat) :
    (a - 1).toNat = a.toNat - 1 := by
  have ha := a.isLt
  have h1 := toNat_one (w := w) (by omega)
  rw [BitVec.toNat_sub_of_le (by rw [BitVec.le_def, h1]; omega), h1]

end Sys2Proof.Machine

namespace Sys2Proof

/-- An index into storage fits its register (R10). -/
theorem Config.lt_two_pow_iw (c : Config) {m : Nat} (h : m < c.nmax) : m < 2 ^ c.iw :=
  lt_of_lt_of_le (Machine.lt_two_pow_clog2 h) (Nat.pow_le_pow_right (by decide) (le_max_right _ _))

/-- A count of taps fits its register (R10). -/
theorem Config.lt_two_pow_nw (c : Config) {m : Nat} (h : m ≤ c.nmax) : m < 2 ^ c.nw :=
  Machine.lt_two_pow_clog2 (Nat.lt_succ_of_le h)

/-- A count of taps fits the data field of a command word (R10). -/
theorem Config.lt_two_pow_dw (c : Config) {m : Nat} (h : m ≤ c.nmax) : m < 2 ^ c.dw :=
  lt_of_lt_of_le (c.lt_two_pow_nw h)
    (Nat.pow_le_pow_right (by decide) (le_trans (le_max_right _ _) (le_max_right _ _)))

end Sys2Proof
end

