-- ==== Sys2Proof/Laws/Decode.lean ====
section
/-! SUPPORT. The two fields of a command word, taken apart and put together (30_encoding.md R71). -/

namespace Sys2Proof

theorem opField_append (dw : Nat) (op : BitVec 2) (data : BitVec dw) :
    opField dw (op ++ data) = op := by
  apply BitVec.eq_of_getLsbD_eq
  intro i hi
  simp [opField, BitVec.getLsbD_append, hi]

theorem dataField_append (dw : Nat) (op : BitVec 2) (data : BitVec dw) :
    dataField dw (op ++ data) = data := by
  apply BitVec.eq_of_getLsbD_eq
  intro i hi
  simp [dataField, BitVec.getLsbD_append, hi]

theorem opField_append_dataField (dw : Nat) (w : BitVec (2 + dw)) :
    opField dw w ++ dataField dw w = w := by
  apply BitVec.eq_of_getLsbD_eq
  intro i hi
  simp only [opField, dataField, BitVec.getLsbD_extractLsb', BitVec.getLsbD_append]
  by_cases h : i < dw
  · simp [h]
  · simp [h, show i - dw < 2 by omega, show dw + (i - dw) = i by omega]

theorem payloadCoef_encodePayload (dw cw : Nat) (k : BitVec cw) (h : cw ≤ dw) :
    payloadCoef dw cw (encodePayload dw cw k) = k := by
  apply BitVec.eq_of_getLsbD_eq
  intro i hi
  simp [payloadCoef, encodePayload, dataField_append, hi, show i < dw by omega]

end Sys2Proof
end

