-- ==== Sys2Proof/Laws/Memory.lean ====
section
/-! SUPPORT. The laws of a memory: what a read gives after a write or a forgetting, and that each
keeps the canonical form. -/

namespace Sys2Proof.Machine

variable {w : Nat}

@[simp] theorem Memory.read_nil (i : Nat) : Memory.read ([] : Memory w) i = none := rfl

@[simp] theorem Memory.wf_nil : Memory.wf ([] : Memory w) = true := rfl

theorem Memory.read_write (m : Memory w) (i : Nat) (v : BitVec w) (k : Nat) :
    (Memory.write m i v).read k = if k = i then some v else m.read k := by
  induction m with
  | nil => simp only [Memory.write, Memory.read]
  | cons cell m ih =>
    obtain ⟨a, u⟩ := cell
    simp only [Memory.write]
    split
    · simp only [Memory.read]
    · split
      · subst_vars
        simp only [Memory.read]
        split <;> simp_all
      · simp only [Memory.read, ih]
        split <;> split <;> simp_all

@[simp] theorem Memory.read_write_same (m : Memory w) (i : Nat) (v : BitVec w) :
    (Memory.write m i v).read i = some v := by simp [Memory.read_write]

theorem Memory.read_write_other (m : Memory w) {i k : Nat} (v : BitVec w) (h : k ≠ i) :
    (Memory.write m i v).read k = m.read k := by simp [Memory.read_write, h]

theorem Memory.read_keepBelow (n : Nat) (m : Memory w) (i : Nat) :
    (Memory.keepBelow n m).read i = if i < n then m.read i else none := by
  induction m with
  | nil => simp [Memory.keepBelow]
  | cons cell m ih =>
    obtain ⟨a, u⟩ := cell
    simp only [Memory.keepBelow] at ih ⊢
    by_cases h : a < n
    · simp only [List.filter_cons, h, decide_true, if_true, Memory.read, ih]
      split <;> simp_all
    · simp only [List.filter_cons, h, decide_false, Memory.read]
      simp only [Bool.false_eq_true, if_false, ih]
      split
      · rename_i hi
        rw [if_neg (by omega)]
      · rfl

/-- The canonical form as a fact about the list of indices. -/
theorem Memory.wf_iff (m : Memory w) :
    Memory.wf m = true ↔ (m.map Prod.fst).Pairwise (· < ·) := by
  induction m with
  | nil => simp
  | cons cell m ih =>
    obtain ⟨a, u⟩ := cell
    cases m with
    | nil => simp [Memory.wf]
    | cons cell' m =>
      obtain ⟨b, v⟩ := cell'
      rw [Memory.wf, Bool.and_eq_true, ih, decide_eq_true_eq]
      simp only [List.map_cons, List.pairwise_cons, List.mem_cons]
      constructor
      · rintro ⟨hab, hb, hm⟩
        refine ⟨?_, hb, hm⟩
        rintro x (rfl | hx)
        · exact hab
        · exact lt_trans hab (hb x hx)
      · rintro ⟨ha, hb, hm⟩
        exact ⟨ha b (Or.inl rfl), hb, hm⟩

theorem Memory.mem_write_index {m : Memory w} {i : Nat} {v : BitVec w} {k : Nat}
    (h : k ∈ (Memory.write m i v).map Prod.fst) : k = i ∨ k ∈ m.map Prod.fst := by
  induction m with
  | nil => simpa [Memory.write] using h
  | cons cell m ih =>
    obtain ⟨a, u⟩ := cell
    simp only [Memory.write] at h
    split at h
    · simpa using h
    · split at h
      · simp only [List.map_cons, List.mem_cons] at h ⊢
        tauto
      · simp only [List.map_cons, List.mem_cons] at h ⊢
        rcases h with h | h
        · exact Or.inr (Or.inl h)
        · rcases ih h with h | h
          · exact Or.inl h
          · exact Or.inr (Or.inr h)

theorem Memory.wf_write {m : Memory w} (h : Memory.wf m = true) (i : Nat) (v : BitVec w) :
    Memory.wf (Memory.write m i v) = true := by
  rw [Memory.wf_iff] at h ⊢
  induction m with
  | nil => simp [Memory.write]
  | cons cell m ih =>
    obtain ⟨a, u⟩ := cell
    rw [List.map_cons, List.pairwise_cons] at h
    simp only [Memory.write]
    split
    · rename_i hia
      simp only [List.map_cons, List.pairwise_cons, List.mem_cons]
      refine ⟨?_, h⟩
      rintro x (rfl | hx)
      · exact hia
      · exact lt_trans hia (h.1 x hx)
    · split
      · rename_i hia
        subst hia
        simpa using h
      · rename_i h1 h2
        simp only [List.map_cons, List.pairwise_cons]
        refine ⟨fun x hx => ?_, ih h.2⟩
        rcases Memory.mem_write_index hx with rfl | hx
        · omega
        · exact h.1 x hx

theorem Memory.wf_keepBelow {m : Memory w} (h : Memory.wf m = true) (n : Nat) :
    Memory.wf (Memory.keepBelow n m) = true := by
  rw [Memory.wf_iff] at h ⊢
  exact h.sublist (List.Sublist.map _ List.filter_sublist)

/-- A cell is read exactly when it exists and holds a value. -/
theorem readCell_ok {space : Space} {nmax : Nat} {m : Memory w} {i : Nat} {v : BitVec w} :
    readCell space nmax m i = .ok v ↔ i < nmax ∧ m.read i = some v := by
  unfold readCell
  split
  · split <;> simp_all
  · simp_all

/-- A cell is written exactly when it exists. -/
theorem writeCell_ok {space : Space} {nmax : Nat} {m m' : Memory w} {i : Nat} {v : BitVec w} :
    writeCell space nmax m i v = .ok m' ↔ i < nmax ∧ m' = m.write i v := by
  unfold writeCell
  split
  · simp_all [eq_comm]
  · simp_all

end Sys2Proof.Machine
end

