-- ==== Sys2Proof/Laws/State.lean ====
section
/-! SUPPORT. The field lemmas of the operations that write several elements at once: one per field
and operation, true by rfl. -/

namespace Sys2Proof.Machine

variable {c : Config}

section respond
variable (s : Status) (d : BitVec c.aw) (e : Engine c)
@[simp] theorem Engine.respond_coef : (e.respond s d).coef = e.coef := rfl
@[simp] theorem Engine.respond_hist : (e.respond s d).hist = e.hist := rfl
@[simp] theorem Engine.respond_wc : (e.respond s d).wc = e.wc := rfl
@[simp] theorem Engine.respond_N : (e.respond s d).N = e.N := rfl
@[simp] theorem Engine.respond_valid : (e.respond s d).valid = e.valid := rfl
@[simp] theorem Engine.respond_phase : (e.respond s d).phase = .resp := rfl
@[simp] theorem Engine.respond_j : (e.respond s d).j = e.j := rfl
@[simp] theorem Engine.respond_rem : (e.respond s d).rem = e.rem := rfl
@[simp] theorem Engine.respond_xin : (e.respond s d).xin = e.xin := rfl
@[simp] theorem Engine.respond_acc : (e.respond s d).acc = e.acc := rfl
@[simp] theorem Engine.respond_rspValid : (e.respond s d).rspValid = true := rfl
@[simp] theorem Engine.respond_rspStatus : (e.respond s d).rspStatus = s.code := rfl
@[simp] theorem Engine.respond_rspData : (e.respond s d).rspData = d := rfl
end respond

section endResponse
variable (e : Engine c)
@[simp] theorem Engine.endResponse_coef : e.endResponse.coef = e.coef := rfl
@[simp] theorem Engine.endResponse_hist : e.endResponse.hist = e.hist := rfl
@[simp] theorem Engine.endResponse_wc : e.endResponse.wc = e.wc := rfl
@[simp] theorem Engine.endResponse_N : e.endResponse.N = e.N := rfl
@[simp] theorem Engine.endResponse_valid : e.endResponse.valid = e.valid := rfl
@[simp] theorem Engine.endResponse_phase : e.endResponse.phase = .idle := rfl
@[simp] theorem Engine.endResponse_rspValid : e.endResponse.rspValid = false := rfl
end endResponse

section createDone
variable (e : Engine c)
@[simp] theorem Engine.createDone_coef : e.createDone.coef = e.coef.keepBelow e.N.toNat := rfl
@[simp] theorem Engine.createDone_hist : e.createDone.hist = e.hist.keepBelow e.N.toNat := rfl
@[simp] theorem Engine.createDone_wc : e.createDone.wc = 0 := rfl
@[simp] theorem Engine.createDone_N : e.createDone.N = e.N := rfl
@[simp] theorem Engine.createDone_valid : e.createDone.valid = true := rfl
@[simp] theorem Engine.createDone_phase : e.createDone.phase = .resp := rfl
@[simp] theorem Engine.createDone_j : e.createDone.j = e.j := rfl
@[simp] theorem Engine.createDone_rspValid : e.createDone.rspValid = true := rfl
@[simp] theorem Engine.createDone_rspStatus : e.createDone.rspStatus = 0 := rfl
@[simp] theorem Engine.createDone_rspData : e.createDone.rspData = 0 := rfl
end createDone

section advStep
variable (e : Engine c)
@[simp] theorem Engine.advStep_coef : e.advStep.coef = e.coef := rfl
@[simp] theorem Engine.advStep_hist : e.advStep.hist = e.hist := rfl
@[simp] theorem Engine.advStep_N : e.advStep.N = e.N := rfl
@[simp] theorem Engine.advStep_valid : e.advStep.valid = e.valid := rfl
@[simp] theorem Engine.advStep_phase : e.advStep.phase = .resp := rfl
@[simp] theorem Engine.advStep_wc :
    e.advStep.wc = BitVec.ofNat c.iw (nextCursor e.wc.toNat e.N.toNat) := rfl
@[simp] theorem Engine.advStep_rspValid : e.advStep.rspValid = true := rfl
@[simp] theorem Engine.advStep_rspStatus : e.advStep.rspStatus = 0 := rfl
@[simp] theorem Engine.advStep_rspData : e.advStep.rspData = e.acc := rfl
end advStep

section hostPart
variable (s : State)
@[simp] theorem State.hostPart_engine : s.hostPart.engine = s.engine := rfl
@[simp] theorem State.hostPart_script : s.hostPart.script = s.restOfScript := rfl
@[simp] theorem State.hostPart_taken : s.hostPart.taken = s.takenAfter := rfl
@[simp] theorem State.withEngine_ok (e : Engine Config.default) :
    s.withEngine (.ok e) = .next { s with engine := e } := rfl
@[simp] theorem State.withEngine_error (f : Fault) : s.withEngine (.error f) = .fault f := rfl
end hostPart

end Sys2Proof.Machine
end

