-- ==== Sys2Proof/Laws/Engine.lean ====
section
/-! SUPPORT. What each step of the engine can do, said once: the state it answers, and exactly when. -/

namespace Sys2Proof.Machine

variable {c : Config}

/-- The header step of `CREATE` does one of three things. -/
theorem Engine.createHeader_cases (n : Nat) (e : Engine c) :
    (n = 0 ∧ e.createHeader n = e.raiseError .invalidArgument) ∨
    (n ≠ 0 ∧ c.nmax < n ∧
      e.createHeader n = { e with rem := BitVec.ofNat c.dw n, phase := .discard }) ∨
    (n ≠ 0 ∧ n ≤ c.nmax ∧
      e.createHeader n =
        { e with valid := false, N := BitVec.ofNat c.nw n, j := 0, phase := .load }) := by
  unfold Engine.createHeader
  split
  · exact Or.inl ⟨‹_›, rfl⟩
  · split
    · exact Or.inr (Or.inl ⟨‹_›, ‹_›, rfl⟩)
    · exact Or.inr (Or.inr ⟨‹_›, by omega, rfl⟩)

/-- The header step of `PROC` does one of two things. -/
theorem Engine.procHeader_cases (x : Nat) (e : Engine c) :
    (e.valid = false ∧ e.procHeader x = e.raiseError .noFilter) ∨
    (e.valid = true ∧ e.procHeader x = { e with xin := sampleOperand c x, phase := .write }) := by
  unfold Engine.procHeader
  cases e.valid <;> simp

/-- The load step answers a state exactly when cell `j` exists. -/
theorem Engine.loadStep_ok {w : BitVec c.cmdw} {e e' : Engine c} :
    e.loadStep w = .ok e' ↔ e.j.toNat < c.nmax ∧
      e' =
        if e.j.toNat + 1 < e.N.toNat then
          { e with
            coef := e.coef.write e.j.toNat (coefOperand c w)
            hist := e.hist.write e.j.toNat c.num.zeroS
            j := e.j + 1 }
        else
          Engine.createDone
            { e with
              coef := e.coef.write e.j.toNat (coefOperand c w)
              hist := e.hist.write e.j.toNat c.num.zeroS } := by
  unfold Engine.loadStep writeCell
  by_cases h : e.j.toNat < c.nmax
  · simp only [h, if_true, true_and]
    split <;> simp [eq_comm]
  · simp [h]

/-- The write step answers a state exactly when the cell at the cursor exists. -/
theorem Engine.writeStep_ok {draw : BitVec 53} {e e' : Engine c} :
    e.writeStep draw = .ok e' ↔ e.wc.toNat < c.nmax ∧
      e' = { e with
             hist := e.hist.write e.wc.toNat e.xin
             acc := c.num.encA draw c.num.zeroA
             j := 0
             phase := .mac } := by
  unfold Engine.writeStep writeCell
  by_cases h : e.wc.toNat < c.nmax
  · simp [h, eq_comm]
  · simp [h]

/-- The MAC step answers a state exactly when both cells it reads exist and hold a value. -/
theorem Engine.macStep_ok {draw : BitVec 53} {e e' : Engine c} :
    e.macStep draw = .ok e' ↔ ∃ k h,
      e.j.toNat < c.nmax ∧ e.coef.read e.j.toNat = some k ∧
      readIndex e.wc.toNat e.j.toNat e.N.toNat < c.nmax ∧
      e.hist.read (readIndex e.wc.toNat e.j.toNat e.N.toNat) = some h ∧
      e' =
        if e.j.toNat + 1 < e.N.toNat then
          { e with acc := macSum c draw e.acc k h, j := e.j + 1 }
        else
          { e with acc := macSum c draw e.acc k h, j := e.j + 1, phase := .adv } := by
  unfold Engine.macStep
  split
  · rename_i f hf
    simp only [reduceCtorEq, false_iff]
    rintro ⟨k, h, h1, h2, -⟩
    rw [readCell_ok.2 ⟨h1, h2⟩] at hf
    cases hf
  · rename_i k hk
    split
    · rename_i f hf
      simp only [reduceCtorEq, false_iff]
      rintro ⟨k, h, -, -, h1, h2, -⟩
      rw [readCell_ok.2 ⟨h1, h2⟩] at hf
      cases hf
    · rename_i h hh
      rw [readCell_ok] at hk hh
      constructor
      · intro he
        refine ⟨k, h, hk.1, hk.2, hh.1, hh.2, ?_⟩
        split at he <;> rename_i hj
        · rw [if_pos hj]; exact (Except.ok.inj he).symm
        · rw [if_neg hj]; exact (Except.ok.inj he).symm
      · rintro ⟨k', h', -, hk', -, hh', rfl⟩
        obtain rfl := Option.some.inj (hk.2.symm.trans hk')
        obtain rfl := Option.some.inj (hh.2.symm.trans hh')
        split <;> rfl

/-- Which move an edge makes: the one its phase calls for, if the host's part is there (R178). -/
theorem Inputs.move_eq_some {i : Inputs c} {p : Phase} {m : Move c} (h : i.move p = some m) :
    m.enabledIn p = true := by
  unfold Inputs.move at h
  split at h
  · cases h; rfl
  · cases p <;> simp only at h
    all_goals first
      | (split at h
         · cases h; rfl
         · cases h)
      | (cases h; rfl)

end Sys2Proof.Machine
end

