-- ==== Sys2Proof/Laws/Edge.lean ====
section
/-! SUPPORT. Which step an edge takes in each phase, and runs of edges taken apart (R178). -/

namespace Sys2Proof.Machine

variable {c : Config} {draw : BitVec 53} {e : Engine c}

theorem Engine.edge_rst {i : Inputs c} (h : i.rst = true) : e.edge draw i = .ok e.resetEdge := by
  simp [Engine.edge, Inputs.move, h, Engine.apply]

theorem Engine.edge_idle (h : e.phase = .idle) (w : BitVec c.cmdw) :
    e.edge draw ⟨false, true, w, false⟩ = .ok (e.headerStep (decodeHeader c.dw w)) := by
  simp [Engine.edge, Inputs.move, h, Inputs.givesWord, Phase.cmdReady, Engine.apply]

theorem Engine.edge_load (h : e.phase = .load) (w : BitVec c.cmdw) :
    e.edge draw ⟨false, true, w, false⟩ = e.loadStep w := by
  simp [Engine.edge, Inputs.move, h, Inputs.givesWord, Phase.cmdReady, Engine.apply]

theorem Engine.edge_discard (h : e.phase = .discard) (w : BitVec c.cmdw) :
    e.edge draw ⟨false, true, w, false⟩ = .ok (e.discardStep w) := by
  simp [Engine.edge, Inputs.move, h, Inputs.givesWord, Phase.cmdReady, Engine.apply]

theorem Engine.edge_write (h : e.phase = .write) :
    e.edge draw (Inputs.silent c) = e.writeStep draw := by
  simp [Engine.edge, Inputs.move, Inputs.silent, h, Engine.apply]

theorem Engine.edge_mac (h : e.phase = .mac) :
    e.edge draw (Inputs.silent c) = e.macStep draw := by
  simp [Engine.edge, Inputs.move, Inputs.silent, h, Engine.apply]

theorem Engine.edge_adv (h : e.phase = .adv) :
    e.edge draw (Inputs.silent c) = .ok e.advStep := by
  simp [Engine.edge, Inputs.move, Inputs.silent, h, Engine.apply]

theorem Engine.edge_resp (h : e.phase = .resp) {i : Inputs c} (hr : i.rst = false) :
    e.edge draw i = .ok (if i.rspReady then e.endResponse else e) := by
  cases hq : i.rspReady <;> simp [Engine.edge, Inputs.move, h, hr, hq, Engine.apply]

theorem Engine.ownSteps_succ {d k : Nat} {e' : Engine c}
    (h : e.edge (Config.freeNan d) (Inputs.silent c) = .ok e') :
    e.ownSteps d (k + 1) = e'.ownSteps (d + 1) k := by
  simp [Engine.ownSteps, h]

/-- Own steps one run after another. -/
theorem Engine.ownSteps_add {d k l : Nat} {e' : Engine c} (h : e.ownSteps d k = .ok e') :
    e.ownSteps d (k + l) = e'.ownSteps (d + k) l := by
  induction k generalizing d e with
  | zero => cases h; simp
  | succ k ih =>
    rw [show k + 1 + l = (k + l) + 1 by omega]
    simp only [Engine.ownSteps] at h ⊢
    split at h
    · cases h
    · rw [ih h, show d + 1 + k = d + (k + 1) by omega]

theorem Engine.give_cons {d : Nat} {e' : Engine c} {w : BitVec c.cmdw} {ws : List (BitVec c.cmdw)}
    (h : e.edge (Config.freeNan d) ⟨false, true, w, false⟩ = .ok e') :
    Engine.give d (w :: ws) e = Engine.give (d + 1) ws e' := by
  simp [Engine.give, h]

end Sys2Proof.Machine
end

