-- ==== Sys2Proof/Laws/Filter.lean ====
section
/-! SUPPORT. The filter held in an engine (10_state.md R35), read cell by cell. -/

namespace Sys2Proof.Machine

variable {c : Config} {w : Nat}

theorem Memory.firstCells_length (n : Nat) (m : Memory w) : (m.firstCells n).length = n := by
  simp [Memory.firstCells]

theorem Memory.firstCells_getD {n i : Nat} {m : Memory w} (h : i < n) :
    (m.firstCells n).getD i 0 = (m.read i).getD 0 := by
  simp [Memory.firstCells, List.getD, h]

/-- Writing a cell is setting that place of the sequence. -/
theorem Memory.firstCells_write {n i : Nat} {m : Memory w} {v : BitVec w} :
    (m.write i v).firstCells n = (m.firstCells n).set i v := by
  apply List.ext_getElem
  · simp [Memory.firstCells]
  · intro k h1 h2
    simp only [Memory.firstCells, List.length_map, List.length_range] at h1
    simp only [Memory.firstCells, List.getElem_map, List.getElem_range, List.getElem_set,
      Memory.read_write, eq_comm]
    split <;> simp

theorem Engine.filter_of_valid {e : Engine c} (h : e.valid = true) :
    e.filter = some ⟨e.coef.firstCells e.N.toNat, e.hist.firstCells e.N.toNat, e.wc.toNat⟩ := by
  simp [Engine.filter, h]

theorem Engine.filter_eq_none {e : Engine c} : e.filter = none ↔ e.valid = false := by
  unfold Engine.filter
  cases e.valid <;> simp

theorem Filter.store_taps (x : BitVec c.sw) (f : Filter c) : (f.store x).taps = f.taps := rfl
theorem Filter.advance_taps (f : Filter c) : f.advance.taps = f.taps := rfl
theorem Filter.proc_taps (x : BitVec c.sw) (f : Filter c) : (f.proc x).taps = f.taps := rfl

end Sys2Proof.Machine
end

