-- ==== Sys2Proof/Laws/Numerics.lean ====
section
/-! SUPPORT. What the engine needs of a number system, for INT and for F64. -/

namespace Sys2Proof.Machine

/-- A pattern whose exponent is all ones and whose fraction is not zero is a not-a-number (R125). -/
theorem F64.decode_eq_nan {b : BitVec 64} (h : finiteMagnitudes < b.toNat % 2 ^ 63) :
    F64.decode b = .nan := by
  simp only [F64.decode]
  rw [dif_neg (by omega), if_neg (by omega)]

/-- Every draw is an encoding of a not-a-number (R128). -/
theorem F64.decode_nanBits (draw : BitVec 53) : F64.decode (F64.nanBits draw) = .nan := by
  have hd := draw.isLt
  apply F64.decode_eq_nan
  simp only [F64.nanBits, BitVec.toNat_ofNat, finiteMagnitudes]
  split <;> omega

/-- The product of two finite data is their exact product rounded once (R126). -/
theorem F64.mul_fin (a b : Bool) (m n : Fin finiteMagnitudes) :
    F64.mul (.fin a m) (.fin b n) =
      roundToF64 (a ^^ b) (unitsOf m.val * unitsOf n.val) 1074 := rfl

/-- A finite sum other than zero is the exact sum rounded once (R126). -/
theorem F64.add_fin {a b : Bool} {m n : Fin finiteMagnitudes}
    (h : signedUnits a m.val + signedUnits b n.val ≠ 0) :
    F64.add (.fin a m) (.fin b n) =
      roundToF64 (decide (signedUnits a m.val + signedUnits b n.val < 0))
        (signedUnits a m.val + signedUnits b n.val).natAbs 0 :=
  if_neg h

/-- A finite datum is read back from its encoding (R125). -/
theorem F64.decode_encode_fin (draw : BitVec 53) (neg : Bool) (mag : Fin finiteMagnitudes) :
    F64.decode (F64.encode draw (.fin neg mag)) = .fin neg mag := by
  have hm : mag.val < 2047 * 2 ^ 52 := mag.isLt
  unfold F64.decode F64.encode
  have e : (neg.toNat * 2 ^ 63 + mag.val) % 2 ^ 64 % 2 ^ 63 = mag.val := by
    cases neg <;> simp <;> omega
  simp only [BitVec.toNat_ofNat, e]
  rw [dif_pos hm]
  congr 1
  simp only [BitVec.getLsbD, BitVec.toNat_ofNat, Nat.testBit_eq_decide_div_mod_eq]
  cases neg <;> simp <;> omega

/-- Every datum is read back from its encoding, whatever is drawn (R125, R128). -/
theorem F64.decode_encode (draw : BitVec 53) (x : F64) : F64.decode (F64.encode draw x) = x := by
  cases x with
  | nan => exact F64.decode_nanBits draw
  | inf neg => cases neg <;> (simp only [F64.encode]; decide)
  | fin neg mag => exact F64.decode_encode_fin draw neg mag

/-- The encoding of a finite datum gives its own bits back (R125). -/
theorem F64.encode_decode_fin (draw : BitVec 53) {b : BitVec 64}
    (h : (F64.decode b).isFinite = true) : F64.encode draw (F64.decode b) = b := by
  unfold F64.decode at *
  simp only at *
  split at h
  · rename_i hm
    rw [dif_pos hm]
    apply BitVec.eq_of_toNat_eq
    simp only [F64.encode, BitVec.toNat_ofNat, BitVec.getLsbD, Nat.testBit_eq_decide_div_mod_eq]
    have := b.isLt
    generalize b.toNat = B at *
    rcases Nat.mod_two_eq_zero_or_one (B / 2^63) with h | h <;> rw [h] <;> simp <;> omega
  · split at h <;> cases h

/-- The magnitude of a pattern with exponent field `x` and fraction `f`, in units of 2^-1074 (R125). -/
theorem unitsOf_eq (x f : Nat) (hf : f < 2 ^ 52) :
    unitsOf (x * 2 ^ 52 + f) = if x = 0 then f else (2 ^ 52 + f) * 2 ^ (x - 1) := by
  unfold unitsOf
  rw [show (x * 2 ^ 52 + f) / 2 ^ 52 = x by omega, show (x * 2 ^ 52 + f) % 2 ^ 52 = f by omega]
  by_cases hx : x = 0
  · rw [if_pos (by omega), if_pos hx]; omega
  · rw [if_neg (by omega), if_neg hx]

/-- A magnitude is an integer of at most 53 bits times a power of two; a pattern holds both (R125). -/
theorem unitsOf_eq_mul (m : Nat) : ∃ u q : Nat, unitsOf m = q * 2 ^ u ∧ m = u * 2 ^ 52 + q ∧
    q < 2 ^ 53 ∧ (u = 0 ∨ 2 ^ 52 ≤ q) := by
  by_cases h : m < 2 ^ 52
  · exact ⟨0, m, by rw [unitsOf, if_pos h, Nat.pow_zero, Nat.mul_one], by omega, by omega, .inl rfl⟩
  · exact ⟨m / 2 ^ 52 - 1, 2 ^ 52 + m % 2 ^ 52, by simp only [unitsOf, if_neg h], by omega, by omega,
      .inr (by omega)⟩

/-- A multiple of the last place needs no rounding. -/
theorem roundHalfEven_exact (q k : Nat) : roundHalfEven (q * 2 ^ k) k = q := by
  have hk : 0 < 2 ^ k := Nat.two_pow_pos k
  simp [roundHalfEven, Nat.mul_div_cancel _ hk, hk]

/-- A representable magnitude rounds to its own datum (R126). -/
theorem roundToF64_exact (neg : Bool) (m : Fin finiteMagnitudes) (k : Nat) :
    roundToF64 neg (unitsOf m.val * 2 ^ k) k = .fin neg m := by
  obtain ⟨u, q, hu, hm, hq, h⟩ := unitsOf_eq_mul m.val
  have e : unitsOf m.val * 2 ^ k = q * 2 ^ (k + u) := by rw [hu, Nat.mul_assoc, ← Nat.pow_add, Nat.add_comm]
  have hlog : Nat.log2 (q * 2 ^ (k + u)) - (k + 52) = u := by
    rcases h with rfl | h
    · have : q * 2 ^ (k + 0) < 2 ^ (k + 53) := by
        rw [Nat.add_zero, Nat.add_comm k, Nat.pow_add]
        exact Nat.mul_lt_mul_of_pos_right hq (Nat.two_pow_pos k)
      by_cases h0 : q * 2 ^ (k + 0) = 0
      · rw [h0]; simp
      · have := (Nat.log2_lt h0).2 this; omega
    · have hp := Nat.two_pow_pos (k + u)
      have h0 : q * 2 ^ (k + u) ≠ 0 := Nat.mul_ne_zero (by omega) (by omega)
      have h1 : q * 2 ^ (k + u) < 2 ^ (53 + (k + u)) := by
        rw [Nat.pow_add 2 53]; exact Nat.mul_lt_mul_of_pos_right hq hp
      have h2 : 2 ^ (52 + (k + u)) ≤ q * 2 ^ (k + u) := by
        rw [Nat.pow_add 2 52]; exact Nat.mul_le_mul_right _ h
      have := (Nat.log2_lt h0).2 h1
      have := (Nat.le_log2 h0).2 h2
      omega
  unfold roundToF64
  simp only [e, hlog, roundHalfEven_exact, ← hm, m.isLt, dif_pos]

/-- 1.0 is 2^1074 units; the exponent is a variable so that nothing evaluates the power. -/
theorem unitsOf_one (U : Nat) (hU : U = 1074) : unitsOf (1023 * 2 ^ 52) = 2 ^ U := by
  rw [show 1023 * 2 ^ 52 = 1023 * 2 ^ 52 + 0 from rfl, unitsOf_eq _ _ (by decide),
    if_neg (by decide), Nat.add_zero, ← Nat.pow_add]
  exact congrArg _ hU.symm

/-- A product with the sample 1.0 is the coefficient, an infinite one too (R126, R127; log 21). -/
theorem F64.mul_one (x : F64) : F64.mul x F64.one = x := by
  cases x with
  | nan => rfl
  | inf a => simp [F64.one, F64.mul]
  | fin a m =>
    obtain ⟨U, hU⟩ : ∃ U, U = 1074 := ⟨_, rfl⟩
    rw [F64.one, F64.mul_fin, unitsOf_one U hU, ← hU, roundToF64_exact, Bool.xor_false]


/-- A finite coefficient that meets a zero sample gives a zero (R126). -/
theorem F64.mul_zero_of_finite {x : F64} (h : x.isFinite = true) (b : Bool) :
    ∃ a, F64.mul x (F64.zero b) = F64.zero a := by
  cases x with
  | fin a m =>
    refine ⟨a ^^ b, ?_⟩
    obtain ⟨U, hU⟩ : ∃ U, U = 1074 := ⟨_, rfl⟩
    have h0 : unitsOf m.val * unitsOf 0 = unitsOf 0 * 2 ^ U := by simp [unitsOf]
    have := roundToF64_exact (a ^^ b) ⟨0, by decide⟩ U
    rw [← h0, hU] at this
    exact this
  | inf a => cases h
  | nan => cases h

/-- A coefficient that is not finite gives a not-a-number where it meets a zero sample (R127, R129). -/
theorem F64.mul_zero_of_not_finite {x : F64} (h : x.isFinite = false) (b : Bool) :
    F64.mul x (F64.zero b) = .nan := by
  cases x with
  | fin a m => cases h
  | inf a => simp [F64.zero, F64.mul]
  | nan => rfl

/-- Only the zero pattern has magnitude zero. -/
theorem unitsOf_eq_zero {m : Nat} : unitsOf m = 0 ↔ m = 0 := by
  unfold unitsOf
  split
  · rfl
  · have : 0 < (2 ^ 52 + m % 2 ^ 52) * 2 ^ (m / 2 ^ 52 - 1) :=
      Nat.mul_pos (by omega) (Nat.two_pow_pos _)
    omega

/-- A not-a-number total stays one (R128). -/
theorem F64.nan_add (x : F64) : F64.add .nan x = .nan := rfl
/-- Adding a not-a-number gives one (R128). -/
theorem F64.add_nan (x : F64) : F64.add x .nan = .nan := by cases x <;> rfl

/-- Only a zero has signed magnitude zero. -/
theorem signedUnits_eq_zero {a : Bool} {m : Nat} : signedUnits a m = 0 ↔ m = 0 := by
  have := @unitsOf_eq_zero m
  cases a <;> simp [signedUnits] <;> omega

/-- A datum that is not a zero is recovered from its signed magnitude. -/
theorem roundToF64_signedUnits {a : Bool} {m : Fin finiteMagnitudes} (h : m.val ≠ 0) :
    roundToF64 (decide (signedUnits a m.val < 0)) (signedUnits a m.val).natAbs 0 = .fin a m := by
  have hm := (not_congr (@unitsOf_eq_zero m.val)).2 h
  have hn : (signedUnits a m.val).natAbs = unitsOf m.val * 2 ^ 0 := by
    cases a
    all_goals simp [signedUnits]
  have ha : decide (signedUnits a m.val < 0) = a := by
    cases a
    · simp [signedUnits]
    · simp [signedUnits]; omega
  rw [hn, ha, roundToF64_exact]

/-- Adding a zero changes nothing but a negative zero (R127). -/
theorem F64.add_zero {x : F64} (h : x ≠ F64.zero true) (b : Bool) : F64.add x (F64.zero b) = x := by
  cases x with
  | nan => rfl
  | inf a => rfl
  | fin a m =>
    have hz : signedUnits b 0 = 0 := signedUnits_eq_zero.2 rfl
    by_cases hm : m.val = 0
    · obtain rfl : m = ⟨0, by decide⟩ := Fin.ext hm
      cases a
      · simp [F64.zero, F64.add, signedUnits, unitsOf]
      · exact absurd rfl h
    · rw [F64.zero, F64.add_fin (by rwa [hz, Int.add_zero, ne_eq, signedUnits_eq_zero]), hz, Int.add_zero,
        roundToF64_signedUnits hm]

/-- Added to `+0` a datum is itself, but that `-0` becomes `+0` (R127, R129). -/
theorem F64.zero_add (x : F64) :
    F64.add (F64.zero false) x = if x = F64.zero true then F64.zero false else x := by
  cases x with
  | nan => rfl
  | inf a => rfl
  | fin a m =>
    have hz : signedUnits false 0 = 0 := signedUnits_eq_zero.2 rfl
    by_cases hm : m.val = 0
    · obtain rfl : m = ⟨0, by decide⟩ := Fin.ext hm
      cases a <;> simp [F64.zero, F64.add, signedUnits, unitsOf]
    · rw [if_neg (by intro h; cases h; exact hm rfl), F64.zero,
        F64.add_fin (by rwa [hz, Int.zero_add, ne_eq, signedUnits_eq_zero]), hz, Int.zero_add,
        roundToF64_signedUnits hm]

end Sys2Proof.Machine

namespace Sys2Proof

open Sys2Proof.Machine

/-- In INT a running total may be put through its encoding between two additions (R115, R122):
addition modulo `2^AW` forgets nothing the result still shows. -/
theorem Num.int_faithful (sw cw aw : Nat) : (Num.int sw cw aw).Faithful := by
  intro draw draw' (a : Int) (p : Int)
  change twos aw (signed aw (twos aw a) + p) = twos aw (a + p)
  simp only [twos_eq_ofInt, signed_eq_toInt]
  rw [BitVec.ofInt_add, BitVec.ofInt_toInt, ← BitVec.ofInt_add]

/-- In F64 too, because every datum is read back from its encoding. -/
theorem Num.f64_faithful : Num.f64.Faithful := by
  intro draw draw' (a : F64) (p : F64)
  change F64.encode draw (F64.add (F64.decode (F64.encode draw' a)) p) = F64.encode draw (F64.add a p)
  rw [F64.decode_encode]

end Sys2Proof
end

