-- ==== Sys2Proof/Laws/PerInstr.lean ====
section
/-! SUPPORT. The fields of each instruction's header word. -/

namespace Sys2Proof.Laws.HeaderFields

/-- The header word of an instruction has its operation in the op field, and its number in the data
field if it fits (30_encoding.md R71 to R73). -/
def Statement (i : Instr) : Prop :=
  ∀ dw : Nat, opField dw (encodeHeader dw i) = i.op ∧
    (i.wf dw = true → (dataField dw (encodeHeader dw i)).toNat = i.data)

theorem of_instr (i : Instr) : Statement i := by
  intro dw
  refine ⟨opField_append dw _ _, fun h => ?_⟩
  have hd : i.data < 2 ^ dw := by simpa [Instr.wf] using h
  rw [encodeHeader, dataField_append, BitVec.toNat_ofNat, Nat.mod_eq_of_lt hd]

theorem create (n : Nat) : Statement (.create n) := of_instr _
theorem proc (x : Nat) : Statement (.proc x) := of_instr _
theorem rsvd0 (d : Nat) : Statement (.rsvd0 d) := of_instr _
theorem rsvd3 (d : Nat) : Statement (.rsvd3 d) := of_instr _

end Sys2Proof.Laws.HeaderFields
end

