-- ==== Sys2Proof/Tests/Slice0.lean ====
section
/-! SUPPORT. Tests of single steps with results taken from the spec, the WellFormed smoke test, and
for each statement with hypotheses a witness that meets them (named `witness_<statement>`). -/

namespace Sys2Proof.Tests

open Sys2Proof.Machine

/-! ## Helpers -/

/-- The state an outcome answers, if it answers one. -/
def stateOf : Host.Outcome State Fault Refusal → Option State
  | .next s => some s
  | .fault _ => none
  | .refused _ => none

/-- The two-tap filter of 41_process.md R100's worked example: `N = 2, coef = [1, 1], hist = [5, 0],
wc = 1`, in the given phase, with `xin = 3`. -/
def twoTap (p : Phase) (j : BitVec 9) : Engine Config.default where
  coef := [(0, 1), (1, 1)]
  hist := [(0, 5), (1, 0)]
  wc := 1
  N := 2
  valid := true
  phase := p
  j := j
  rem := 0
  xin := 3
  acc := 8
  rspValid := decide (p = .resp)
  rspStatus := 0
  rspData := 8

/-- The same `CREATE`, one of its two coefficient words taken. -/
def halfLoaded : Engine Config.default :=
  { twoTap .load 1 with coef := [(0, 1)], hist := [(0, 0)], valid := false }

/-- An over-capacity `CREATE` with `r` payload words still to drop, over the two-tap filter. -/
def dropping (r : BitVec 16) : Engine Config.default :=
  { twoTap .discard 0 with rem := r }

/-- An engine with a host that has the given script. -/
def under (e : Engine Config.default) (script : List HostMove) : State := ⟨e, script, []⟩

/-- The one-tap filter of V24 in F64: coefficient `-1.0`, history `+0`, waiting for a header. -/
def oneTapF64 : Engine (Config.f64 256) where
  coef := [(0, 0xBFF0000000000000#64)]
  hist := [(0, 0#64)]
  wc := 0
  N := 1
  valid := true
  phase := .idle
  j := 0
  rem := 0
  xin := 0
  acc := 0
  rspValid := false
  rspStatus := 0
  rspData := 0

theorem two_taps (i : Nat) (h : i < 2) : i = 0 ∨ i = 1 := by omega

theorem twoTap_inv {p : Phase} {j : BitVec 9} (hl : p ≠ .load) (hd : p ≠ .discard)
    (hm : p = .mac → j.toNat < 2) (ha : p = .adv → j = 2) : (twoTap p j).Inv where
  coefForm := rfl
  histForm := rfl
  coefRoom := by
    intro i hi
    have : 256 ≤ i := hi
    simp [twoTap, Memory.read, show i ≠ 0 by omega, show i ≠ 1 by omega]
  histRoom := by
    intro i hi
    have : 256 ≤ i := hi
    simp [twoTap, Memory.read, show i ≠ 0 by omega, show i ≠ 1 by omega]
  count := fun _ => ⟨(by decide : (1 : Nat) ≤ 2), (by decide : (2 : Nat) ≤ 256)⟩
  cursor := fun _ => (by decide : (1 : Nat) < 2)
  cells := by
    intro _ i hi
    rcases two_taps i hi with rfl | rfl <;> exact ⟨rfl, rfl⟩
  outside := by
    intro _ i hi
    have : 2 ≤ i := hi
    simp [twoTap, Memory.read, show i ≠ 0 by omega, show i ≠ 1 by omega]
  loading := fun h => absurd h hl
  discarding := fun h => absurd h hd
  processing := fun _ => rfl
  accumulating := hm
  accumulated := ha
  offering := by simp [twoTap]
  status := fun _ => (by decide : (0 : Nat) ≤ 4)
  errorData := fun _ h => absurd rfl h

theorem halfLoaded_inv : halfLoaded.Inv where
  coefForm := by decide
  histForm := by decide
  coefRoom := by
    intro i hi
    have : 256 ≤ i := hi
    simp [halfLoaded, Memory.read, show i ≠ 0 by omega]
  histRoom := by
    intro i hi
    have : 256 ≤ i := hi
    simp [halfLoaded, Memory.read, show i ≠ 0 by omega]
  count := fun _ => by decide
  cursor := fun h => absurd h (by decide)
  cells := fun h => absurd h (by decide)
  outside := fun h => absurd h (by decide)
  loading := by
    refine fun _ => ⟨rfl, by decide, fun i hi => ?_⟩
    have : i < 1 := hi
    obtain rfl : i = 0 := by omega
    exact ⟨rfl, rfl⟩
  discarding := fun h => absurd h (by decide)
  processing := fun h => absurd h (by decide)
  accumulating := fun h => absurd h (by decide)
  accumulated := fun h => absurd h (by decide)
  offering := by decide
  status := fun h => absurd h (by decide)
  errorData := fun h => absurd h (by decide)

theorem oneTapF64_inv : oneTapF64.Inv where
  coefForm := rfl
  histForm := rfl
  coefRoom := by
    intro i hi
    have : 256 ≤ i := hi
    simp [oneTapF64, Memory.read, show i ≠ 0 by omega]
  histRoom := by
    intro i hi
    have : 256 ≤ i := hi
    simp [oneTapF64, Memory.read, show i ≠ 0 by omega]
  count := fun _ => by decide
  cursor := fun _ => by decide
  cells := by
    intro _ i hi
    have : i < 1 := hi
    obtain rfl : i = 0 := by omega
    exact ⟨rfl, rfl⟩
  outside := by
    intro _ i hi
    have : 1 ≤ i := hi
    simp [oneTapF64, Memory.read, show i ≠ 0 by omega]
  loading := fun h => absurd h (by decide)
  discarding := fun h => absurd h (by decide)
  processing := fun _ => rfl
  accumulating := fun h => absurd h (by decide)
  accumulated := fun h => absurd h (by decide)
  offering := by decide
  status := fun _ => by decide
  errorData := fun h => absurd h (by decide)

/-! ## Decoding: words written out bit by bit from 30_encoding.md (R71, R72, section 7) -/

/-- `CREATE` with 7 coefficients: op 01, data 7, the word `10007`. -/
theorem test_decode_create :
    decodeHeader 16 0b01_0000000000000111#18 = .create 7 := by decide

/-- `PROC -20`: op 10, data `FFEC`, the word `2FFEC`. -/
theorem test_decode_proc :
    decodeHeader 16 0b10_1111111111101100#18 = .proc 0xFFEC := by decide

/-- A reserved header of V3, op 00: the word `0FFFF`. -/
theorem test_decode_rsvd0 :
    decodeHeader 16 0b00_1111111111111111#18 = .rsvd0 0xFFFF := by decide

/-- A reserved header of V3, op 11: the word `3ABCD`. -/
theorem test_decode_rsvd3 :
    decodeHeader 16 0b11_1010101111001101#18 = .rsvd3 0xABCD := by decide

/-- In F64 (DW = 64) the op field is bits 65:64 (R71): `23FF0000000000000` is `PROC 1.0` (V21). -/
theorem test_decode_f64 :
    decodeHeader 64 0x23FF0000000000000#66 = .proc 0x3FF0000000000000 := by decide

/-- A number of 19 bits is no command word (R71). -/
theorem test_decode_wide : decodeNat 16 0x40000 = .error .widerThanACommandWord := by decide

/-- `PROC -32768` is `28000` (30_encoding.md section 7). -/
theorem test_encode_proc : encodeHeader 16 (.proc 0x8000) = 0x28000#18 := by decide

/-- `CREATE 1` is `10001 00001` (30_encoding.md section 7). -/
theorem test_encode_create :
    (Command.words (c := Config.default) (.create [1])).map BitVec.toNat = [0x10001, 0x00001] := by
  decide

/-! ## WellFormed smoke: an ill-formed term for each check -/

theorem test_wf_create : (Instr.create 65536).wf 16 = false := by decide
theorem test_wf_proc : (Instr.proc 65536).wf 16 = false := by decide
theorem test_wf_rsvd0 : (Instr.rsvd0 65536).wf 16 = false := by decide
theorem test_wf_rsvd3 : (Instr.rsvd3 65536).wf 16 = false := by decide
theorem test_wf_no_capacity : (Config.int 0 16 16 40).wf = false := by decide
theorem test_wf_no_sample : (Config.int 256 0 16 40).wf = false := by decide
theorem test_wf_no_coefficient : (Config.int 256 16 0 40).wf = false := by decide
theorem test_wf_no_sum : (Config.int 256 16 16 0).wf = false := by decide
theorem test_intWf_no_capacity : Config.intWf 0 16 16 40 = false := by decide
theorem test_intWf_no_sample : Config.intWf 256 0 16 40 = false := by decide
theorem test_intWf_no_coefficient : Config.intWf 256 16 0 40 = false := by decide
/-- One bit short of R9's bound `16 + 16 + 8`. -/
theorem test_intWf_narrow_sum : Config.intWf 256 16 16 39 = false := by decide
theorem test_wf_default : Config.default.wf = true ∧ Config.intWf 256 16 16 40 = true := by decide

/-! ## One step each -/

/-- V5: after reset the header of `CREATE 3` (`10001`) starts loading one coefficient (R91). -/
theorem test_create_header :
    stateOf (step (State.reset.withFetchWord 24 0x10001)) =
      some { State.reset with
        engine := { State.reset.engine with N := 1, phase := .load }
        script := [.word 0] } := by decide

/-- R100's worked example of `CREATE 1, 1`, its last word: the filter is complete, OK:0 (R93). V7: the
last word an over-capacity `CREATE` drops; the filter is still there, CAPACITY:0 (R94). -/
theorem test_create_last_word :
    stateOf (step (under halfLoaded [.word 0x00001])) =
      some (under { halfLoaded with
        coef := [(0, 1), (1, 1)], hist := [(0, 0), (1, 0)], wc := 0, valid := true
        rspValid := true, rspStatus := 0, rspData := 0, phase := .resp } []) ∧
    stateOf (step (under (dropping 1) [.word 0x00000])) =
      some (under { dropping 1 with
        rspValid := true, rspStatus := 2, rspData := 0, phase := .resp } []) := by decide

/-- V16: after reset `PROC 7` (`20007`) answers NO_FILTER. R100's worked example, `PROC 3` (`20003`):
the header step latches the sample (R101). -/
theorem test_proc_header :
    (stateOf (step (State.reset.withFetchWord 24 0x20007))).map
      (fun s => s.engine.rspWord.toNat) = some 0x30000000000 ∧
    stateOf (step (under { twoTap .idle 0 with xin := 0 } [.word 0x20003])) =
      some (under { twoTap .idle 0 with xin := 3, phase := .write } []) := by decide

/-- The same example: the write step writes `hist[1] <- 3` (R102); the advance step wraps the cursor to
0 and answers `00000000008` (R104). Between them a MAC step whose read index wraps, `wc = 0, j = 1`:
coefficient 1 meets cell 1 (R103, R114 (c)), and 0xFFFF * 7 is -7, `FFFFFFFFF9`. -/
theorem test_proc_steps :
    stateOf (step (under (twoTap .write 0) [])) =
      some (under { twoTap .mac 0 with hist := [(0, 5), (1, 3)], acc := 0 } []) ∧
    stateOf (step (under { twoTap .mac 1 with
        coef := [(0, 1), (1, 0xFFFF)], hist := [(0, 5), (1, 7)], wc := 0, acc := 0 } [])) =
      some (under { twoTap .adv 2 with
        coef := [(0, 1), (1, 0xFFFF)], hist := [(0, 5), (1, 7)], wc := 0
        acc := 0xFFFFFFFFF9#40 } []) ∧
    (stateOf (step (under (twoTap .adv 2) []))).map
        (fun s => (s.engine.wc.toNat, s.engine.phase, s.engine.rspWord.toNat)) =
      some (0, .resp, 0x00000000008) := by decide

/-- V3: the reserved word `0FFFF` answers ILLEGAL_COMMAND and changes nothing else. -/
theorem test_rsvd0 :
    stateOf (step (under (twoTap .idle 0) [.word 0x0FFFF])) =
      some (under { twoTap .idle 0 with
        rspValid := true, rspStatus := 4, rspData := 0, phase := .resp } []) := by decide

/-- V3: so does `3ABCD`. -/
theorem test_rsvd3 :
    stateOf (step (under (twoTap .idle 0) [.word 0x3ABCD])) =
      some (under { twoTap .idle 0 with
        rspValid := true, rspStatus := 4, rspData := 0, phase := .resp } []) := by decide

/-- Taking the response of R100's worked example (R87). -/
theorem test_take :
    stateOf (step (under (twoTap .resp 0) [.take])) =
      some ⟨{ twoTap .resp 0 with rspValid := false, phase := .idle }, [],
        [0x00000000008#43]⟩ := by decide

/-- V17 (c): reset while a response is untaken loses it and the filter (R165, R173). -/
theorem test_reset :
    (stateOf (step (under (twoTap .resp 0) [.reset]))).map
        (fun s => (s.engine.valid, s.engine.phase, s.engine.rspValid, s.taken)) =
      some (false, .idle, false, []) := by decide

/-- A MAC step that reads a cell without a value faults by name (R158): no run reaches this state. -/
theorem test_unwritten_faults :
    step (under { twoTap .mac 0 with coef := [] } []) = .fault (.unwrittenCell .coef 0) := rfl

/-! ## Numbers -/

/-- R119: `(-32768) * 32767 = -1073709056`. -/
theorem test_int_product : intProduct 40 (0x8000 : BitVec 16) (0x7FFF : BitVec 16) =
    -1073709056 := by decide

/-- R122: `-9` is `FFFFFFFFF7` in 40 bits, and back. -/
theorem test_int_encoding : twos 40 (-9) = 0xFFFFFFFFF7#40 ∧ signed 40 0xFFFFFFFFF7#40 = -9 := by
  decide

/-- V22: in binary64 `0.1 + 0.2 = 0.30000000000000004` (`3FD3333333333334`). -/
theorem test_f64_add : F64.encode 0 (F64.add (F64.decode 0x3FB999999999999A#64)
    (F64.decode 0x3FC999999999999A#64)) = 0x3FD3333333333334#64 := by
  decide +kernel

/-- V23: infinity times zero is a not-a-number, with status OK whatever its bits. -/
theorem test_f64_invalid :
    F64.mul (F64.decode 0x7FF0000000000000#64) (F64.decode 0#64) = .nan := by decide

/-- V24: `-1.0` times `0.0`, added to the empty sum, is `+0`. -/
theorem test_f64_zero : F64.encode 0 (F64.add (F64.zero false)
    (F64.mul (F64.decode 0xBFF0000000000000#64) (F64.decode 0#64))) = 0#64 := by
  decide +kernel

/-- R126: a tie, three halves of the least magnitude, goes to the even neighbour. -/
theorem test_f64_tie : roundToF64 false 3 1 = .fin false 2 := by decide

/-- R127 (log 21): the first output of P1's stream under the coefficients `+infinity, 1.0` is infinite. -/
theorem test_f64_infinite_coefficient : Filter.f64Total (nmax := 256)
    ⟨[0x7FF0000000000000#64, 0x3FF0000000000000#64], [0x3FF0000000000000#64, 0#64], 0⟩ 2 =
      .inf false := by decide +kernel

/-! ## Notation (30_encoding.md R84, R85, section 7) -/

/-- `CREATE -9, .rep 2, 0x0049` is `10003 0FFF7 00049 00049`. -/
theorem test_assemble : (assemble 256 16 16 40
    [.create [.one (.decimal (-9)), .rep 2 (.pattern 0x49)]]).map (List.map BitVec.toNat) =
      some [0x10003, 0x0FFF7, 0x00049, 0x00049] := by decide

/-- The response `OK:-9` is written `0FFFFFFFFF7`, with 11 digits. -/
theorem test_hex_text :
    String.ofList (hexText 43 (responseWord (c := Config.default) 0 (twos 40 (-9)))) =
      "0FFFFFFFFF7" := by decide

/-! ## Witnesses: for each statement with hypotheses, values that meet them -/

theorem witness_HeaderDecodeInvertsEncode :
    (Instr.create 65535).wf 16 = true ∧ (Instr.proc 65535).wf 16 = true ∧
    (Instr.rsvd0 0).wf 16 = true ∧ (Instr.rsvd3 0).wf 16 = true := by decide

/-- CW = 8 below DW = 16: data that differ above bit 7 only. -/
theorem witness_PayloadReadsOnlyItsCoefficient :
    (Config.int 256 16 8 40).cw = 8 ∧ (Config.int 256 16 8 40).dw = 16 ∧
    ∀ k, k < 8 → (0xFF05#16).getLsbD k = (0x0005#16).getLsbD k := by decide

theorem witness_SampleIsTheLowBits :
    0x1FFFF % 2 ^ Config.default.sw = 0xFFFF % 2 ^ Config.default.sw := by decide

/-- One word, two words, and an over-capacity `CREATE` of an engine with one cell. -/
theorem witness_CommandLengthIsInTheHeader :
    (twoTap .idle 0).phase = .idle ∧
    1 + 0 = (decodeHeader 16 0x10000#18).length ∧ 1 + 0 = (decodeHeader 16 0x20007#18).length ∧
    1 + 0 = (decodeHeader 16 0x3ABCD#18).length ∧
    1 + [0x00003#18].length = (decodeHeader 16 0x10001#18).length ∧
    (Config.int 1 16 16 40).dw = 16 ∧ (Engine.reset (Config.int 1 16 16 40)).phase = .idle ∧
    1 + [0x00003#18, 0x00003#18].length = (decodeHeader 16 0x10002#18).length :=
  ⟨rfl, rfl, rfl, rfl, rfl, by decide, rfl, rfl⟩

theorem witness_AssembledWordsReadBack :
    (Line.words 256 16 16 40 (.create [])).isSome = true ∧
    (Line.words 256 16 16 40 (.create [.rep 2 (.decimal (-32768))])).isSome = true ∧
    (Line.words 256 16 16 40 (.proc (.pattern 0xFFFF))).isSome = true := by
  decide +kernel

theorem witness_DerivedWidths : 255 < Config.default.nmax ∧ 256 ≤ Config.default.nmax := by decide

theorem witness_Clog2IsTheLeastExponent : 1 ≤ 1 ∧ 257 ≤ 2 ^ 9 := by decide

theorem witness_StepRunsTheDecodedHeader :
    (twoTap .idle 0).phase = .idle ∧
    (under (twoTap .idle 0) [.word 0x20003]).script = [.word 0x20003] ∧
    decodeTableWord 24 0x3FFFF = some (.rsvd3 0xFFFF) ∧
    decodeTableWord 24 0 = some (.rsvd0 0) := by decide

theorem witness_CreateInRangeStartsLoading : (1 ≤ 1 ∧ 1 ≤ 256) ∧ (1 ≤ 256 ∧ 256 ≤ 256) := by decide

/-- The least and the greatest such count, the last word to drop and the last but one. -/
theorem witness_OverCapacityCreateDropsItsPayload :
    (256 < 257 ∧ 257 < 2 ^ 16) ∧ (256 < 65535 ∧ 65535 < 2 ^ 16) ∧
    (dropping 1).phase = .discard ∧ ¬ 1 < (dropping 1).rem.toNat ∧
    (dropping 2).phase = .discard ∧ 1 < (dropping 2).rem.toNat := by decide

theorem witness_ProcHeaderLatchesOrAnswersNoFilter :
    0xFFFF < 2 ^ 16 ∧ (twoTap .idle 0).valid = true ∧ State.reset.engine.valid = false := by decide

theorem witness_ReservedHeadersAreIllegalCommands :
    (under (twoTap .idle 0) [.word 0x0FFFF, .take]).engine.phase = .idle ∧
    opField 16 0x0FFFF#18 = 0 ∧ opField 16 0x3ABCD#18 = 3 := by decide

theorem witness_HeaderStepFrame :
    (∃ t, exec (.create 1) State.reset = .next t) ∧
    (∃ t, exec (.create 257) State.reset = .next t) ∧
    (∃ t, exec (.proc 3) (under (twoTap .idle 0) []) = .next t) ∧
    (∃ t, exec (.rsvd3 0) State.reset = .next t) :=
  ⟨⟨_, rfl⟩, ⟨_, rfl⟩, ⟨_, rfl⟩, ⟨_, rfl⟩⟩

/-- No payload word, the most that are in range, and one more. -/
theorem witness_CreateCompletes :
    ∀ n, n = 0 ∨ n = 256 ∨ n = 257 → ∃ (s : State) (ws : List (BitVec Config.default.cmdw)),
      ws.length = n ∧ ws.length < 2 ^ 16 ∧ s.script = ws.map HostMove.word ++ [] := by
  intro n h
  refine ⟨under (twoTap .idle 0) ((List.replicate n 1).map HostMove.word ++ []),
    List.replicate n 1, List.length_replicate, ?_, rfl⟩
  rw [List.length_replicate]
  omega

theorem idle_inv : (twoTap .idle 0).Inv :=
  twoTap_inv (by decide) (by decide) (fun h => absurd h (by decide)) (fun h => absurd h (by decide))

theorem write_inv : (twoTap .write 0).Inv :=
  twoTap_inv (by decide) (by decide) (fun h => absurd h (by decide)) (fun h => absurd h (by decide))

theorem mac_inv : (twoTap .mac 1).Inv :=
  twoTap_inv (by decide) (by decide) (fun _ => by decide) (fun h => absurd h (by decide))

theorem adv_inv : (twoTap .adv 2).Inv :=
  twoTap_inv (by decide) (by decide) (fun h => absurd h (by decide)) (fun _ => rfl)

theorem resp_inv : (twoTap .resp 0).Inv :=
  twoTap_inv (by decide) (by decide) (fun h => absurd h (by decide)) (fun h => absurd h (by decide))

/-- The engine after reset meets the invariant in the default configuration. -/
theorem fresh_inv : (Engine.reset Config.default).Inv := by
  constructor <;> first | exact fun _ _ => rfl | decide | (intro h; exact absurd h (by decide))

theorem witness_ProcCompletes :
    (under (twoTap .idle 0) [.take]).Inv ∧ (twoTap .idle 0).phase = .idle ∧
    (under (twoTap .idle 0) [.take]).quiet = true ∧ (twoTap .idle 0).valid = true ∧
    (under (Engine.reset Config.default) []).Inv ∧ State.reset.engine.phase = .idle ∧
    State.reset.quiet = true ∧ State.reset.engine.valid = false :=
  ⟨idle_inv, rfl, rfl, rfl, fresh_inv, rfl, rfl, rfl⟩

/-- The first and the last of the `N + 3` points the statement speaks of. -/
theorem witness_ProcTakesExactlyNPlusTwoSteps :
    (twoTap .write 0).Inv ∧ (twoTap .write 0).phase = .write ∧
    0 ≤ (twoTap .write 0).N.toNat + 2 ∧ 4 ≤ (twoTap .write 0).N.toNat + 2 :=
  ⟨write_inv, rfl, by decide, by decide⟩

/-- No coefficient, the most that are in range, one more, and as many as a header can count. -/
theorem witness_CreateStepsRealiseTheCommand :
    (twoTap .idle 0).phase = .idle ∧
    ∀ n, n = 0 ∨ n = 256 ∨ n = 257 ∨ n = 65535 →
      (Command.create (c := Config.default) (List.replicate n 0)).wf = true := by
  refine ⟨rfl, fun n h => ?_⟩
  simp only [Command.wf, Command.header, List.length_replicate]
  rcases h with rfl | rfl | rfl | rfl <;> rfl

theorem witness_ProcStepsRealiseTheCommand :
    (Config.default.num.Faithful ∧ (twoTap .idle 0).Inv ∧ (twoTap .idle 0).phase = .idle ∧
      (twoTap .idle 0).valid = true) ∧
    ((Config.f64 256).num.Faithful ∧ oneTapF64.Inv ∧ oneTapF64.phase = .idle ∧
      oneTapF64.valid = true) ∧
    (Engine.reset (Config.f64 256)).phase = .idle ∧
    (Engine.reset (Config.f64 256)).valid = false :=
  ⟨⟨Num.int_faithful 16 16 40, idle_inv, rfl, rfl⟩,
    ⟨Num.f64_faithful, oneTapF64_inv, rfl, rfl⟩, rfl, rfl⟩

theorem witness_RunFromResetIsTheCommandLevelRun :
    ∀ k ∈ ([.proc 7, .create [], .create [1, 1], .proc 5, .reserved3 0xABCD] :
      List (Command Config.default)), k.wf = true := by decide

/-- The last word and, with one cell still to fill, the last but one. -/
theorem witness_LoadStepEffect :
    (under halfLoaded [.word 1]).engine.phase = .load ∧
    halfLoaded.j.toNat < halfLoaded.N.toNat ∧ halfLoaded.N.toNat ≤ 256 ∧
    ¬ halfLoaded.j.toNat + 1 < halfLoaded.N.toNat ∧
    ({ halfLoaded with j := 0 } : Engine Config.default).j.toNat + 1 < halfLoaded.N.toNat := by
  decide

theorem witness_WriteStepEffect :
    (under (twoTap .write 0) [.word 0]).Inv ∧ (twoTap .write 0).phase = .write ∧
    (under (twoTap .write 0) [.word 0]).quiet = true :=
  ⟨write_inv, rfl, rfl⟩

/-- The last tap and, with `j = 0`, the first. -/
theorem witness_MacStepEffect :
    (under (twoTap .mac 1) [.take]).Inv ∧ (twoTap .mac 1).phase = .mac ∧
    (under (twoTap .mac 1) [.take]).quiet = true ∧
    (twoTap .mac 0).Inv ∧ (twoTap .mac 0).phase = .mac :=
  ⟨mac_inv, rfl, rfl, twoTap_inv (by decide) (by decide) (fun _ => by decide)
    (fun h => absurd h (by decide)), rfl⟩

/-- A cursor that wraps, at the last cell. -/
theorem witness_AdvStepEffect :
    (under (twoTap .adv 2) []).Inv ∧ (twoTap .adv 2).phase = .adv ∧
    (under (twoTap .adv 2) []).quiet = true ∧
    ¬ (twoTap .adv 2).wc.toNat + 1 < (twoTap .adv 2).N.toNat :=
  ⟨adv_inv, rfl, rfl, by decide⟩

theorem witness_TakeResponseEffect :
    (under (twoTap .resp 0) [.take]).engine.phase = .resp ∧ (twoTap .resp 0).rspValid = true ∧
    (∀ rest, (under (twoTap .resp 0) [.word 0]).script ≠ .take :: rest ∧
      (under (twoTap .resp 0) [.word 0]).script ≠ .reset :: rest) :=
  ⟨rfl, rfl, fun rest => by simp [under]⟩

theorem witness_ResetOutranksEverything :
    (⟨true, true, 0, true⟩ : Inputs Config.default).rst = true ∧
    (under (twoTap .mac 1) [.reset, .reset]).script =
      List.replicate (1 + 1) HostMove.reset ++ [] := by decide

theorem witness_WordIsTakenExactlyWhenReady :
    (∃ t, step (under (twoTap .resp 0) [.word 1]) = .next t) ∧
    (∃ t, step (under halfLoaded [.word 1]) = .next t) :=
  ⟨⟨_, rfl⟩, ⟨_, rfl⟩⟩

theorem witness_EngineWaitsForWords :
    halfLoaded.rspValid = false ∧ halfLoaded.phase = .load ∧
    (dropping 1).rspValid = false ∧ (dropping 1).phase = .discard ∧
    State.reset.engine.rspValid = false ∧ State.reset.engine.phase = .idle ∧
    State.reset.script = [] := by decide

theorem witness_EdgesMakeOnlyEnabledMoves :
    (Inputs.silent Config.default).rst = false ∧
    (Inputs.silent Config.default).move .mac = some .mac ∧
    Phase.resp ≠ .write ∧ Phase.resp ≠ .mac ∧ Phase.resp ≠ .adv := by decide

theorem witness_EveryStepKeepsTheInvariant :
    (under (twoTap .mac 1) []).Inv ∧ (∃ t, step (under (twoTap .mac 1) []) = .next t) ∧
    (under halfLoaded [.word 1]).Inv ∧ (∃ t, step (under halfLoaded [.word 1]) = .next t) :=
  ⟨mac_inv, ⟨_, rfl⟩, halfLoaded_inv, ⟨_, rfl⟩⟩

theorem witness_EveryEdgeKeepsTheInvariant :
    (twoTap .resp 0).Inv ∧ ∃ e', (twoTap .resp 0).edge 0 ⟨false, true, 0, true⟩ = .ok e' :=
  ⟨resp_inv, ⟨_, rfl⟩⟩

theorem witness_NoStepStopsTheMachine : (under halfLoaded []).Inv ∧ (twoTap .mac 1).Inv :=
  ⟨halfLoaded_inv, mac_inv⟩

/-- Two engines after reset that differ in every unspecified register. -/
theorem witness_UnspecifiedElementsAreNeverRead :
    (Engine.reset Config.default).Inv ∧
    ({ Engine.reset Config.default with
      wc := 9, N := 9, j := 9, rem := 9, xin := 9, acc := 9, rspStatus := 7, rspData := 9 } :
        Engine Config.default).Inv ∧
    (Engine.reset Config.default).Same { Engine.reset Config.default with
      wc := 9, N := 9, j := 9, rem := 9, xin := 9, acc := 9, rspStatus := 7, rspData := 9 } := by
  refine ⟨fresh_inv, ?_, ?_⟩ <;>
    constructor <;> first | exact fun _ _ => rfl | decide | (intro h; exact absurd h (by decide))

theorem witness_TapsAndCoefficientsAreImmutable :
    (twoTap .mac 1).Inv ∧ (twoTap .mac 1).valid = true ∧
    ∃ e', (twoTap .mac 1).edge 0 (Inputs.silent Config.default) = .ok e' ∧ e'.valid = true :=
  ⟨mac_inv, rfl, ⟨_, rfl, rfl⟩⟩

/-- In WRITE, where the cell at the cursor changes, and in ADV, where the cursor does. -/
theorem witness_HistoryIsNeverShifted :
    ((twoTap .write 0).Inv ∧ (twoTap .write 0).valid = true ∧
      (∃ e', (twoTap .write 0).edge 0 (Inputs.silent Config.default) = .ok e' ∧
        e'.valid = true) ∧ 0 ≠ (twoTap .write 0).wc.toNat) ∧
    ((twoTap .adv 2).Inv ∧ (twoTap .adv 2).valid = true ∧
      (∃ e', (twoTap .adv 2).edge 0 (Inputs.silent Config.default) = .ok e' ∧
        e'.valid = true) ∧ (twoTap .adv 2).phase ≠ .write) :=
  ⟨⟨write_inv, rfl, ⟨_, rfl, rfl⟩, by decide⟩, adv_inv, rfl, ⟨_, rfl, rfl⟩, by decide⟩

theorem witness_ModuloIsTheSpecsModulo :
    1 ≤ 1 ∧ (0 < 7 ∧ (7 : Int) ∣ -7 - 0) ∧ (2 < 3 ∧ 2 < 3) ∧ (0 < 3 ∧ 2 < 3) := by decide

theorem witness_ReadPointerIsTheCircularIndex : (0 < 1 ∧ 1 ≤ 1) ∧ (2 < 3 ∧ 3 ≤ 3) := by decide

/-- The first sample of a one-tap filter, and an age no sample has yet. -/
theorem witness_HistoryHoldsTheRecentSamples :
    1 ≤ [(1 : BitVec 16)].length ∧ 1 ≤ 1 ∧ 1 ≤ [(1 : BitVec 16)].length ∧
    2 ≤ [(1 : BitVec 16), 1].length ∧ ¬ 2 ≤ [(5 : BitVec 16)].length := by decide

theorem witness_OutputsAreTheConvolution :
    1 ≤ [(1 : BitVec 16)].length ∧ 1 ≤ 1 ∧ 1 ≤ [(5 : BitVec 16)].length := by decide

theorem witness_ImpulseResponseIsTheCoefficients :
    (2 ≤ 2 ∧ 1 ≤ [(1 : BitVec 16)].length) ∧
    (∀ b ∈ [0x8000000000000000#64, 0x7FEFFFFFFFFFFFFF#64], (F64.decode b).isFinite = true) ∧
    (0 ≠ 1 ∧ (F64.decode ([0x7FF0000000000000#64, 0x3FF0000000000000#64].getD 0 0)).isFinite = false) ∧
    (∀ i, i < 2 → i ≠ 0 →
      (F64.decode ([0x7FF0000000000000#64, 0x3FF0000000000000#64].getD i 0)).isFinite = true) := by
  exact ⟨by decide, List.forall_mem_cons.2 ⟨by decide, List.forall_mem_cons.2 ⟨by decide,
    fun _ h => nomatch h⟩⟩, by decide, by decide⟩

/-- V18: `-17 = 3 * 1 - 2 * 10` and `46 = 3 * 2 - 2 * (-20)`. -/
theorem witness_ProcessingIsLinear :
    1 ≤ [(2 : BitVec 16), -3, 4].length ∧
    ∀ i, i < 2 → ([(-17 : BitVec 16), 46].getD i 0).toInt =
      3 * ([(1 : BitVec 16), 2].getD i 0).toInt + -2 * ([(10 : BitVec 16), -20].getD i 0).toInt := by
  decide

theorem witness_ProcessingIsTimeInvariant : 1 ≤ [(2 : BitVec 16), -3, 4].length := by decide

theorem witness_ZeroInZeroOut : 1 ≤ [(2 : BitVec 16), -3, 4].length := by decide

/-- An erring `CREATE` of each kind among samples. -/
theorem witness_OutputsDependOnFilterAndSamplesOnly :
    ∀ k ∈ ([.proc 3, .create [], .reserved0 0, .create (List.replicate 257 0)] :
      List (Command Config.default)), k.keepsFilter = true := by
  intro k hk
  simp only [List.mem_cons, List.not_mem_nil, or_false] at hk
  rcases hk with rfl | rfl | rfl | rfl
  · rfl
  · rfl
  · rfl
  · simp only [Command.keepsFilter, List.length_replicate]
    rfl

theorem witness_ProductIsExactAndBounded : 1 ≤ 1 ∧ 1 ≤ 1 ∧ (1#1).toInt = -2 ^ (1 - 1) := by decide

/-- The largest filter of the default configuration and its last running total (R121). -/
theorem witness_RunningTotalsNeverOverflow :
    Config.intWf 256 16 16 40 = true ∧
    ∃ f : Filter Config.default, f.taps ≤ 256 ∧ 256 ≤ f.taps :=
  ⟨by decide, ⟨List.replicate 256 0, [], 0⟩, List.length_replicate.le, List.length_replicate.ge⟩

theorem witness_MacIsBitwiseAddOfProduct :
    Config.intWf 256 16 16 40 = true ∧ Config.intWf 1 1 1 2 = true := by decide

theorem witness_F64EncodingsAreFaithful :
    F64.decode 0x8000000000000000#64 ≠ .nan ∧ F64.decode 0x7FF0000000000000#64 ≠ .nan ∧
    F64.decode 0x7FF0000000000001#64 = .nan ∧ F64.decode 0xFFFFFFFFFFFFFFFF#64 = .nan := by decide

theorem witness_F64SpecialValues : (1 : Fin finiteMagnitudes).val ≠ 0 := by decide

/-- V23: coefficient infinity meets sample zero. -/
theorem witness_F64NotANumberPersists :
    1 ≤ 2 ∧ Filter.f64Total (nmax := 256)
      ⟨[0x7FF0000000000000#64, 0x3FF0000000000000#64], [0#64, 0#64], 0⟩ 1 = .nan := by decide

/-- A fraction at its greatest, and operands whose sum is zero and is not. -/
theorem witness_F64RoundsToNearestEven :
    2 ^ 52 - 1 < 2 ^ 52 ∧
    (0 : Int) = -(unitsOf (1 : Fin finiteMagnitudes).val : Int) +
      unitsOf (1 : Fin finiteMagnitudes).val ∧
    (2 : Int) = unitsOf (1 : Fin finiteMagnitudes).val + unitsOf (1 : Fin finiteMagnitudes).val ∧
    (2 : Int) ≠ 0 := by decide

theorem witness_EngineStandsForTheDecodedTriple :
    (twoTap .mac 1).Inv ∧ (twoTap .mac 1).valid = true ∧ 1 < (twoTap .mac 1).N.toNat ∧
    (Engine.reset Config.default).Inv ∧ (Engine.reset Config.default).valid = false :=
  ⟨mac_inv, rfl, by decide, fresh_inv, rfl⟩

end Sys2Proof.Tests
end

section
/-! Proofs about the scope chapter (00_scope.md): `clog2` and the widths made from it (R10, R16),
the INT configurations refused (R7, R9), and the remainder modulo the tap count (R15). -/

namespace Sys2Proof

/-! ## `clog2` and the configuration -/

/-- `clog2 m` is at most `e` exactly when `2^e` reaches `m` (R16): its two halves are the bound and
the leastness of the rule. -/
theorem clog2_le_iff {m e : Nat} : clog2 m ≤ e ↔ m ≤ 2 ^ e := by
  unfold clog2
  split
  case isTrue hm => exact iff_of_true (Nat.zero_le e) (hm.trans Nat.one_le_two_pow)
  case isFalse hm =>
    calc (m - 1).log2 + 1 ≤ e ↔ m - 1 < 2 ^ e := Nat.log2_lt (by omega)
      _ ↔ m ≤ 2 ^ e := by omega

/-- Settles O10: the bound and the leastness are the two directions of `clog2_le_iff`. -/
theorem clog2IsTheLeastExponent : Obligations.Clog2IsTheLeastExponent := by
  refine ⟨fun m _ => ⟨clog2_le_iff.mp le_rfl, fun e => clog2_le_iff.mpr⟩, ?_⟩
  decide

/-- Settles O9: each width is its formula by definition, and what the two index widths hold are the
laws of `Config.iw` and `Config.nw`. -/
theorem derivedWidths : Obligations.DerivedWidths := by
  refine ⟨fun c => ⟨rfl, rfl, rfl, rfl, rfl, fun _ => c.lt_two_pow_iw,
    fun _ => c.lt_two_pow_nw⟩, ?_⟩
  decide

/-- The bounds of R7 and R9 that an INT configuration is checked against. -/
theorem Config.intWf_iff {nmax sw cw aw : Nat} : Config.intWf nmax sw cw aw = true ↔
    1 ≤ nmax ∧ 1 ≤ sw ∧ 1 ≤ cw ∧ sw + cw + clog2 nmax ≤ aw := by
  simp [Config.intWf, and_assoc]

theorem Config.int?_eq_none_iff {nmax sw cw aw : Nat} :
    Config.int? nmax sw cw aw = none ↔ ¬ Config.intWf nmax sw cw aw = true := by
  simp [Config.int?]

/-- Settles O11: a refusal is the failure of the check, and so of one of its four bounds. -/
theorem illFormedIntConfigurationsRefused : Obligations.IllFormedIntConfigurationsRefused := by
  intro nmax sw cw aw
  rw [Config.int?_eq_none_iff, Config.intWf_iff]
  omega

end Sys2Proof

namespace Sys2Proof.Machine

/-! ## The remainder modulo the tap count -/

theorem dvd_sub_modN (a : Int) {n : Nat} (h : 1 ≤ n) : (n : Int) ∣ a - modN a n := by
  rw [cast_modN a h]
  exact Int.dvd_self_sub_emod

/-- The remainder is the only number below `n` in the class of `a` (R15). -/
theorem modN_eq_of_dvd_sub {a : Int} {r n : Nat} (hr : r < n) (h : (n : Int) ∣ a - r) :
    modN a n = r := by
  have hclass : (r : Int) % n = a % n := Int.modEq_iff_dvd.mpr h
  rw [modN, ← hclass, ← Int.natCast_mod, Int.toNat_natCast, Nat.mod_eq_of_lt hr]

/-- The read index goes back `j` cells from the cursor, once round the end if it must (R58). -/
theorem readIndex_eq {n a j : Nat} (ha : a < n) (hj : j < n) :
    readIndex a j n = if j ≤ a then a - j else a + n - j := by
  split
  case isTrue h =>
    exact modN_eq_of_dvd_sub (by omega) ⟨0, by push_cast [h]; ring⟩
  case isFalse h =>
    exact modN_eq_of_dvd_sub (by omega) ⟨-1, by push_cast [show j ≤ a + n by omega]; ring⟩

/-- The cursor goes one cell on, and from the last cell to the first (R104). -/
theorem nextCursor_eq {n a : Nat} (ha : a < n) :
    nextCursor a n = if a + 1 < n then a + 1 else 0 := by
  split
  case isTrue h => exact modN_eq_of_dvd_sub h ⟨0, by push_cast; ring⟩
  case isFalse h =>
    obtain rfl : n = a + 1 := by omega
    exact modN_eq_of_dvd_sub (by omega) ⟨1, by push_cast; ring⟩

/-- Settles O43: the closed forms of the read index and of the cursor advance follow from the
uniqueness of the remainder. -/
theorem moduloIsTheSpecsModulo : Obligations.ModuloIsTheSpecsModulo := by
  refine ⟨fun a n hn => ⟨modN_lt a hn, dvd_sub_modN a hn, fun r hr h => ?_⟩,
    fun n a j ha hj => ⟨readIndex_eq ha hj, nextCursor_eq ha⟩⟩
  exact (modN_eq_of_dvd_sub hr h).symm

end Sys2Proof.Machine
end

section
/-! Proofs about the state chapter (10_state.md): the invariant of the engine and of the machine,
the ports and the host's step, the filter an engine stands for (R35), the circular history (R34). -/

namespace Sys2Proof

/-- The number a header word carries fits its data field (R71, R73). -/
theorem decodeHeader_data_lt (dw : Nat) (w : BitVec (2 + dw)) :
    (decodeHeader dw w).data < 2 ^ dw := by
  have h := (dataField dw w).isLt
  dsimp only [decodeHeader]
  split_ifs <;> exact h

end Sys2Proof

namespace Sys2Proof.Machine

variable {c : Config} {e e' : Engine c}

/-! ## The invariant in two parts

`Engine.Inv` speaks of the storage, whatever the phase, and of what the sequencer has reached, phase
by phase. A step keeps it if both parts hold of its result (`Engine.StorageInv.inv`). -/

/-- The part of the invariant that no phase has a say in: the memories and the filter in them. -/
structure Engine.StorageInv (e : Engine c) : Prop where
  coefForm : Memory.wf e.coef = true
  histForm : Memory.wf e.hist = true
  coefRoom : ∀ i, c.nmax ≤ i → e.coef.read i = none
  histRoom : ∀ i, c.nmax ≤ i → e.hist.read i = none
  count : e.valid = true → 1 ≤ e.N.toNat ∧ e.N.toNat ≤ c.nmax
  cursor : e.valid = true → e.wc.toNat < e.N.toNat
  cells : e.valid = true → ∀ i, i < e.N.toNat →
    (e.coef.read i).isSome = true ∧ (e.hist.read i).isSome = true
  outside : e.valid = true → ∀ i, e.N.toNat ≤ i → e.coef.read i = none ∧ e.hist.read i = none

/-- What the invariant asks of the sequencer in the phase the engine is in (R27, R28, R81, R140). -/
def Engine.PhaseInv (e : Engine c) : Prop :=
  match e.phase with
  | .idle => True
  | .load => e.valid = false ∧ (1 ≤ e.N.toNat ∧ e.N.toNat ≤ c.nmax) ∧ e.j.toNat < e.N.toNat ∧
      ∀ i, i < e.j.toNat → (e.coef.read i).isSome = true ∧ e.hist.read i = some c.num.zeroS
  | .discard => 1 ≤ e.rem.toNat
  | .write => e.valid = true
  | .mac => e.valid = true ∧ e.j.toNat < e.N.toNat
  | .adv => e.valid = true ∧ e.j = e.N
  | .resp => e.rspStatus.toNat ≤ 4 ∧ (e.rspStatus ≠ 0 → e.rspData = 0)

theorem Engine.Inv.storage (h : e.Inv) : e.StorageInv where
  coefForm := h.coefForm
  histForm := h.histForm
  coefRoom := h.coefRoom
  histRoom := h.histRoom
  count hv := h.count (.inl hv)
  cursor := h.cursor
  cells := h.cells
  outside := h.outside

/-- The two parts, and the offer of a response in RESP alone (R31), are the whole invariant. -/
theorem Engine.StorageInv.inv (hs : e.StorageInv) (hp : e.PhaseInv)
    (ho : e.rspValid = true ↔ e.phase = .resp) : e.Inv where
  coefForm := hs.coefForm
  histForm := hs.histForm
  coefRoom := hs.coefRoom
  histRoom := hs.histRoom
  count := by
    rintro (hv | hl)
    · exact hs.count hv
    · rw [PhaseInv, hl] at hp
      exact hp.2.1
  cursor := hs.cursor
  cells := hs.cells
  outside := hs.outside
  loading hl := by
    rw [PhaseInv, hl] at hp
    exact ⟨hp.1, hp.2.2⟩
  discarding hd := by simpa only [PhaseInv, hd] using hp
  processing hown := by
    unfold PhaseInv at hp
    cases hphase : e.phase <;> simp_all [Phase.own]
  accumulating hm := by
    rw [PhaseInv, hm] at hp
    exact hp.2
  accumulated ha := by
    rw [PhaseInv, ha] at hp
    exact hp.2
  offering := ho
  status hr := by
    rw [PhaseInv, ho.1 hr] at hp
    exact hp.1
  errorData hr := by
    rw [PhaseInv, ho.1 hr] at hp
    exact hp.2

/-- Outside RESP no response is offered (R31). -/
theorem Engine.Inv.rspValid_eq_false (h : e.Inv) (hp : e.phase ≠ .resp) : e.rspValid = false :=
  Bool.eq_false_iff.2 fun hr => hp (h.offering.1 hr)

/-! ## The storage after each kind of write -/

/-- Without a filter only the memories' form and room are at stake. -/
theorem Engine.StorageInv.of_invalid (hv : e.valid = false)
    (hcf : Memory.wf e.coef = true) (hhf : Memory.wf e.hist = true)
    (hcr : ∀ i, c.nmax ≤ i → e.coef.read i = none)
    (hhr : ∀ i, c.nmax ≤ i → e.hist.read i = none) : e.StorageInv :=
  have hno : ¬ e.valid = true := ne_true_of_eq_false hv
  { coefForm := hcf, histForm := hhf, coefRoom := hcr, histRoom := hhr
    count := (absurd · hno), cursor := (absurd · hno)
    cells := (absurd · hno), outside := (absurd · hno) }

/-- Writing a cell below NMAX leaves no cell at NMAX or above (R50). -/
theorem Memory.write_room {w nmax i : Nat} {m : Memory w} (hm : ∀ k, nmax ≤ k → m.read k = none)
    (hi : i < nmax) (v : BitVec w) : ∀ k, nmax ≤ k → (m.write i v).read k = none := fun k hk => by
  rw [Memory.read_write_other m v (by omega), hm k hk]

theorem Memory.keepBelow_room {w nmax : Nat} {m : Memory w} (hm : ∀ k, nmax ≤ k → m.read k = none)
    (n : Nat) : ∀ k, nmax ≤ k → (m.keepBelow n).read k = none := fun k hk => by
  rw [Memory.read_keepBelow, hm k hk, ite_self]

/-- Rewriting a history cell of the filter keeps the storage in order (R102). -/
theorem Engine.StorageInv.write_hist (h : e.StorageInv) (hv : e.valid = true) {i : Nat}
    (hi : i < e.N.toNat) (x : BitVec c.sw) : ({ e with hist := e.hist.write i x }).StorageInv where
  coefForm := h.coefForm
  histForm := Memory.wf_write h.histForm i x
  coefRoom := h.coefRoom
  histRoom := Memory.write_room h.histRoom (hi.trans_le (h.count hv).2) x
  count := h.count
  cursor := h.cursor
  cells _ k hk := by
    obtain ⟨hcoef, hhist⟩ := h.cells hv k hk
    refine ⟨hcoef, ?_⟩
    rw [Memory.read_write]
    split
    · rfl
    · exact hhist
  outside _ k hk := by
    obtain ⟨hcoef, hhist⟩ := h.outside hv k hk
    refine ⟨hcoef, ?_⟩
    rw [Memory.read_write_other _ _ (by dsimp only at hk; omega), hhist]

/-- The advanced cursor is again an index of the filter (R23, R104). -/
theorem Engine.StorageInv.advance (h : e.StorageInv) :
    ({ e with wc := BitVec.ofNat c.iw (nextCursor e.wc.toNat e.N.toNat) }).StorageInv :=
  { h with
    cursor := fun hv => by
      obtain ⟨hpos, hmax⟩ := h.count hv
      have hlt := nextCursor_lt e.wc.toNat hpos
      rw [BitVec.toNat_ofNat, Nat.mod_eq_of_lt (c.lt_two_pow_iw (hlt.trans_le hmax))]
      exact hlt }

/-! ## Each move keeps the invariant -/

theorem Status.code_le_four (s : Status) : s.code.toNat ≤ 4 := by
  cases s <;> decide

theorem Status.code_eq_zero_iff {s : Status} : s.code = 0 ↔ s = .ok := by
  cases s <;> decide

/-- Ending a command: with OK and any data, or with an error and no data (R81, R86, R140). -/
theorem Engine.StorageInv.respond (h : e.StorageInv) {s : Status} {d : BitVec c.aw}
    (hd : s ≠ .ok → d = 0) : (e.respond s d).Inv :=
  Engine.StorageInv.inv { h with }
    (And.intro s.code_le_four fun hs => hd (mt Status.code_eq_zero_iff.2 hs)) (by simp)

theorem Engine.Inv.raiseError (h : e.Inv) (s : Status) : (e.raiseError s).Inv :=
  h.storage.respond fun _ => rfl

theorem Engine.reset_inv (c : Config) : (Engine.reset c).Inv :=
  (Engine.StorageInv.of_invalid rfl rfl rfl (fun _ _ => rfl) (fun _ _ => rfl)).inv trivial
    (by simp [Engine.reset])

theorem Engine.Inv.endResponse (h : e.Inv) : e.endResponse.Inv :=
  Engine.StorageInv.inv { h.storage with } trivial (by simp)

theorem Engine.Inv.createHeader (h : e.Inv) (hp : e.phase = .idle) {n : Nat} (hn : n < 2 ^ c.dw) :
    (e.createHeader n).Inv := by
  have hr : e.rspValid = false := h.rspValid_eq_false (by simp [hp])
  obtain ⟨-, heq⟩ | ⟨h0, -, heq⟩ | ⟨h0, hmax, heq⟩ := e.createHeader_cases n <;> rw [heq]
  · exact h.raiseError _
  · refine Engine.StorageInv.inv { h.storage with } ?_ (by simp [hr])
    change 1 ≤ (BitVec.ofNat c.dw n).toNat
    rw [BitVec.toNat_ofNat, Nat.mod_eq_of_lt hn]
    omega
  · refine Engine.StorageInv.inv (.of_invalid rfl h.coefForm h.histForm h.coefRoom h.histRoom) ?_
      (by simp [hr])
    have hN : (BitVec.ofNat c.nw n).toNat = n := by
      rw [BitVec.toNat_ofNat, Nat.mod_eq_of_lt (c.lt_two_pow_nw hmax)]
    simp only [PhaseInv, hN]
    exact ⟨trivial, ⟨by omega, hmax⟩, Nat.pos_of_ne_zero h0,
      fun i hi => absurd hi (Nat.not_lt_zero i)⟩

theorem Engine.Inv.procHeader (h : e.Inv) (hp : e.phase = .idle) (x : Nat) :
    (e.procHeader x).Inv := by
  obtain ⟨-, heq⟩ | ⟨hv, heq⟩ := e.procHeader_cases x <;> rw [heq]
  · exact h.raiseError _
  · exact Engine.StorageInv.inv { h.storage with } hv (by simp [h.rspValid_eq_false, hp])

theorem Engine.Inv.headerStep (h : e.Inv) (hp : e.phase = .idle) {i : Instr}
    (hi : i.data < 2 ^ c.dw) : (e.headerStep i).Inv := by
  cases i with
  | create n => exact h.createHeader hp hi
  | proc x => exact h.procHeader hp x
  | rsvd0 d => exact h.raiseError _
  | rsvd3 d => exact h.raiseError _

theorem Engine.Inv.discardStep (h : e.Inv) (hp : e.phase = .discard) (w : BitVec c.cmdw) :
    (e.discardStep w).Inv := by
  unfold Engine.discardStep
  split
  case isTrue hrem =>
    refine Engine.StorageInv.inv { h.storage with } ?_ (by simp [h.rspValid_eq_false, hp])
    simp only [PhaseInv, hp, toNat_pred_of_pos hrem]
    omega
  case isFalse => exact h.raiseError _

/-- The load step wrote cell `j`: the cells up to and with `j` are loaded (R27, R92). -/
theorem Engine.Inv.loaded (h : e.Inv) (hp : e.phase = .load) (k : BitVec c.cw) {i : Nat}
    (hi : i < e.j.toNat + 1) :
    ((e.coef.write e.j.toNat k).read i).isSome = true ∧
      (e.hist.write e.j.toNat c.num.zeroS).read i = some c.num.zeroS := by
  obtain ⟨-, -, hloaded⟩ := h.loading hp
  rw [Memory.read_write, Memory.read_write]
  split
  case isTrue => exact ⟨rfl, rfl⟩
  case isFalse hne => exact hloaded i (by omega)

/-- Completion makes a filter of loaded cells: it forgets those outside, and the cursor is the first
index (R90, R93). -/
theorem Engine.createDone_inv
    (hcf : Memory.wf e.coef = true) (hhf : Memory.wf e.hist = true)
    (hcr : ∀ i, c.nmax ≤ i → e.coef.read i = none)
    (hhr : ∀ i, c.nmax ≤ i → e.hist.read i = none)
    (hN : 1 ≤ e.N.toNat ∧ e.N.toNat ≤ c.nmax)
    (hcells : ∀ i, i < e.N.toNat → (e.coef.read i).isSome = true ∧ (e.hist.read i).isSome = true) :
    e.createDone.Inv := by
  refine Engine.StorageInv.respond ?_ (fun _ => rfl)
  constructor
  case coefForm => exact Memory.wf_keepBelow hcf _
  case histForm => exact Memory.wf_keepBelow hhf _
  case coefRoom => exact Memory.keepBelow_room hcr _
  case histRoom => exact Memory.keepBelow_room hhr _
  case count => exact fun _ => hN
  case cursor => exact fun _ => hN.1
  case cells =>
    intro _ i (hi : i < e.N.toNat)
    rw [Memory.read_keepBelow, Memory.read_keepBelow, if_pos hi, if_pos hi]
    exact hcells i hi
  case outside =>
    intro _ i (hi : e.N.toNat ≤ i)
    rw [Memory.read_keepBelow, Memory.read_keepBelow, if_neg hi.not_gt, if_neg hi.not_gt]
    exact ⟨rfl, rfl⟩

theorem Engine.Inv.loadStep (h : e.Inv) (hp : e.phase = .load) {w : BitVec c.cmdw}
    (hstep : e.loadStep w = .ok e') : e'.Inv := by
  obtain ⟨hj, rfl⟩ := Engine.loadStep_ok.1 hstep
  obtain ⟨hv, hjN, -⟩ := h.loading hp
  have hN := h.count (.inr hp)
  have hcf := Memory.wf_write h.coefForm e.j.toNat (coefOperand c w)
  have hhf := Memory.wf_write h.histForm e.j.toNat c.num.zeroS
  have hcr := Memory.write_room h.coefRoom hj (coefOperand c w)
  have hhr := Memory.write_room h.histRoom hj c.num.zeroS
  split
  case isTrue hmore =>
    refine Engine.StorageInv.inv (.of_invalid hv hcf hhf hcr hhr) ?_
      (by simp [h.rspValid_eq_false, hp])
    simp only [PhaseInv, hp, toNat_succ_of_lt hjN]
    exact ⟨hv, hN, hmore, fun i hi => h.loaded hp _ hi⟩
  case isFalse hlast =>
    refine Engine.createDone_inv hcf hhf hcr hhr hN fun i (hi : i < e.N.toNat) => ?_
    obtain ⟨hcoef, hhist⟩ := h.loaded hp (coefOperand c w) (i := i) (by omega)
    exact ⟨hcoef, Option.isSome_of_eq_some hhist⟩

theorem Engine.Inv.writeStep (h : e.Inv) (hp : e.phase = .write) {draw : BitVec 53}
    (hstep : e.writeStep draw = .ok e') : e'.Inv := by
  obtain ⟨-, rfl⟩ := Engine.writeStep_ok.1 hstep
  have hv := h.processing (by rw [hp]; rfl)
  have hwc := h.cursor hv
  exact Engine.StorageInv.inv { h.storage.write_hist hv hwc e.xin with }
    (And.intro hv (Nat.zero_lt_of_lt hwc)) (by simp [h.rspValid_eq_false, hp])

theorem Engine.Inv.macStep (h : e.Inv) (hp : e.phase = .mac) {draw : BitVec 53}
    (hstep : e.macStep draw = .ok e') : e'.Inv := by
  obtain ⟨k, x, -, -, -, -, rfl⟩ := Engine.macStep_ok.1 hstep
  have hv := h.processing (by rw [hp]; rfl)
  have hj := h.accumulating hp
  have hr := h.rspValid_eq_false (by simp [hp])
  have hsucc := toNat_succ_of_lt hj
  split
  case isTrue hmore =>
    refine Engine.StorageInv.inv { h.storage with } ?_ (by simp [hr, hp])
    simp only [PhaseInv, hp, hsucc]
    exact ⟨hv, hmore⟩
  case isFalse hlast =>
    have hjN : e.j + 1 = e.N := BitVec.eq_of_toNat_eq (by omega)
    exact Engine.StorageInv.inv { h.storage with } (And.intro hv hjN) (by simp [hr])

theorem Engine.Inv.advStep (h : e.Inv) : e.advStep.Inv :=
  h.storage.advance.respond fun hne => absurd rfl hne

/-- A move enabled in the engine's phase keeps the invariant: the moves of R178, one by one. -/
theorem Engine.Inv.apply (h : e.Inv) {draw : BitVec 53} {m : Move c}
    (hm : m.enabledIn e.phase = true) (hok : e.apply draw m = .ok e') : e'.Inv := by
  cases m with
  | reset => cases hok; exact Engine.reset_inv c
  | header w =>
    cases hok
    exact h.headerStep (of_decide_eq_true hm) (decodeHeader_data_lt c.dw w)
  | load w => exact h.loadStep (of_decide_eq_true hm) hok
  | discard w => cases hok; exact h.discardStep (of_decide_eq_true hm) w
  | write => exact h.writeStep (of_decide_eq_true hm) hok
  | mac => exact h.macStep (of_decide_eq_true hm) hok
  | adv => cases hok; exact h.advStep
  | take => cases hok; exact h.endResponse

/-- Settles O38: an edge holds or makes a move enabled in its phase, and every such move keeps the
invariant. -/
theorem everyEdgeKeepsTheInvariant : Obligations.EveryEdgeKeepsTheInvariant := by
  intro c draw i e e' h hedge
  unfold Engine.edge at hedge
  split at hedge
  case h_1 => cases hedge; exact h
  case h_2 m hm => exact h.apply (Inputs.move_eq_some hm) hedge

/-! ## The machine's step -/

/-- What `exec` does for a header is the engine's header step, the host left alone (R82). -/
theorem exec_eq_withEngine (i : Instr) (s : State) :
    exec i s = s.withEngine (.ok (s.engine.headerStep i)) := by
  cases i <;> rfl

/-- Settles O35: `step` and `edge` branch on the same move; for a header the step is `exec`, which
is the engine's header step. -/
theorem stepIsAnEdgeOfTheEngine : Obligations.StepIsAnEdgeOfTheEngine := by
  intro s
  unfold step Engine.edge
  split
  case h_1 hm => rw [hm]; rfl
  case h_2 w hm => rw [hm, exec_eq_withEngine]; rfl
  case h_3 m _ hm => rw [hm]

/-- A step that answers a state is an edge that answers an engine, with the host's part done. -/
theorem step_eq_next {s t : State} (h : step s = .next t) :
    ∃ e', s.engine.edge (Config.freeNan 0) s.offer = .ok e' ∧
      t = { s.hostPart with engine := e' } := by
  rw [stepIsAnEdgeOfTheEngine s] at h
  cases hedge : s.engine.edge (Config.freeNan 0) s.offer with
  | error f =>
    rw [hedge] at h
    cases h
  | ok e' =>
    rw [hedge] at h
    cases h
    exact ⟨e', rfl, rfl⟩

/-- Settles O37: a step is an edge of the engine, and every edge keeps the invariant. -/
theorem everyStepKeepsTheInvariant : Obligations.EveryStepKeepsTheInvariant := by
  intro s t h hstep
  obtain ⟨e', hedge, rfl⟩ := step_eq_next hstep
  exact everyEdgeKeepsTheInvariant _ _ _ _ _ h hedge

/-- `cmd_ready` is 1 in the three phases that accept a word (R44). -/
theorem Phase.cmdReady_iff {p : Phase} :
    p.cmdReady = true ↔ p = .idle ∨ p = .load ∨ p = .discard := by
  cases p <;> decide

theorem State.restOfScript_word {s : State} {w : BitVec Config.default.cmdw} {rest : List HostMove}
    (h : s.script = .word w :: rest) :
    s.restOfScript = if s.engine.phase.cmdReady then rest else s.script := by
  rw [State.restOfScript, h]
  rfl

/-- Settles O32: a word leaves the script at a step exactly if `cmd_ready` is 1. -/
theorem wordIsTakenExactlyWhenReady : Obligations.WordIsTakenExactlyWhenReady := by
  refine ⟨fun c e => Phase.cmdReady_iff, fun s t w rest hs hstep => ?_⟩
  obtain ⟨e', -, rfl⟩ := step_eq_next hstep
  simp only [State.hostPart_script, State.restOfScript_word hs, Phase.cmdReady_iff]

/-- While the host offers a word it takes no response (log 6). -/
theorem State.takenAfter_word {s : State} {w : BitVec Config.default.cmdw} {rest : List HostMove}
    (h : s.script = .word w :: rest) : s.takenAfter = s.taken := by
  simp [State.takenAfter, State.offer, h, HostMove.inputs, Engine.transferred]

/-- A word offered in IDLE is a header: it leaves the script, and `exec` runs it (R76, R82). -/
theorem step_header {s : State} {w : BitVec Config.default.cmdw} {rest : List HostMove}
    (hp : s.engine.phase = .idle) (hs : s.script = .word w :: rest) :
    step s = exec (decodeHeader Config.default.dw w) { s with script := rest } := by
  have hmove : s.offer.move s.engine.phase = some (.header w) := by
    simp [State.offer, hs, HostMove.inputs, hp, Inputs.move, Inputs.givesWord, Phase.cmdReady]
  have hhost : s.hostPart = { s with script := rest } := by
    simp [State.hostPart, State.takenAfter_word hs, State.restOfScript_word hs, hp, Phase.cmdReady]
  rw [step, hmove, hhost]

/-- What the table's decoder answers is what the header word of those bits says (R71). -/
theorem decodeHeader_of_decodeTableWord {nbits w : Nat} {i : Instr}
    (h : decodeTableWord nbits w = some i) :
    decodeHeader Config.default.dw (BitVec.ofNat Config.default.cmdw w) = i := by
  unfold decodeTableWord decodeNat at h
  split_ifs at h
  exact Option.some.inj h

/-- Settles O12: the step of a waiting engine is `step_header`, and `withFetchWord` puts the
instruction's words at the head of the script. -/
theorem stepRunsTheDecodedHeader : Obligations.StepRunsTheDecodedHeader := by
  refine ⟨fun s w rest => step_header, fun s nbits w i hw => ?_⟩
  obtain rfl := decodeHeader_of_decodeTableWord hw
  rw [step_header rfl rfl]
  simp [State.withFetchWord, tableWords, Engine.readyForHeader]

/-! ## The filter an engine stands for -/

/-- A cell with a value is listed with it. -/
theorem Memory.firstCells_getElem? {w n i : Nat} {m : Memory w} {v : BitVec w} (hi : i < n)
    (hv : m.read i = some v) : (m.firstCells n)[i]? = some v := by
  simp [Memory.firstCells, hi, hv]

/-- The decoded triple of an engine with a filter (R35). -/
theorem Engine.firFilter_of_valid (hv : e.valid = true) :
    e.firFilter = some
      { coefficients := (e.coef.firstCells e.N.toNat).map c.num.decC
        history := (e.hist.firstCells e.N.toNat).map c.num.decS
        writeCursor := e.wc.toNat } := by
  rw [Engine.firFilter, Engine.filter_of_valid hv]
  rfl

/-- Settles O60: with a filter, the invariant says that every cell below `N` holds a value, and the
triple lists these values decoded. -/
theorem engineStandsForTheDecodedTriple : Obligations.EngineStandsForTheDecodedTriple := by
  intro c e h
  constructor
  · intro hv
    rw [Engine.firFilter, Engine.filter_eq_none.2 hv]
    rfl
  · intro hv
    refine ⟨_, Engine.firFilter_of_valid hv, ?_, ?_, rfl, fun i hi => ?_⟩
    · rw [List.length_map, Memory.firstCells_length]
    · rw [List.length_map, Memory.firstCells_length]
    · obtain ⟨hcoef, hhist⟩ := h.cells hv i hi
      obtain ⟨k, hk⟩ := Option.isSome_iff_exists.1 hcoef
      obtain ⟨x, hx⟩ := Option.isSome_iff_exists.1 hhist
      refine ⟨k, x, hk, hx, ?_, ?_⟩
      · rw [List.getElem?_map, Memory.firstCells_getElem? hi hk, Option.map_some]
      · rw [List.getElem?_map, Memory.firstCells_getElem? hi hx, Option.map_some]

/-! ## The circular history -/

/-- The advance of the cursor makes every sample one older (R34, R104). -/
theorem readIndex_nextCursor_succ (a j : Nat) {n : Nat} (hn : 1 ≤ n) :
    readIndex (nextCursor a n) (j + 1) n = readIndex a j n := by
  obtain ⟨p, hp⟩ : (n : Int) ∣ (a + 1 : Int) - nextCursor a n := dvd_sub_modN _ hn
  obtain ⟨q, hq⟩ : (n : Int) ∣ (a - j : Int) - readIndex a j n := dvd_sub_modN _ hn
  refine modN_eq_of_dvd_sub (readIndex_lt a j hn) ⟨q - p, ?_⟩
  push_cast
  linear_combination hq - hp

theorem nextCursor_mod (k n : Nat) : nextCursor (k % n) n = (k + 1) % n := by
  unfold nextCursor modN
  norm_cast
  exact Nat.mod_add_mod k n 1

theorem Filter.procAll_concat (f : Filter c) (xs : List (BitVec c.sw)) (x : BitVec c.sw) :
    f.procAll (xs ++ [x]) = (f.procAll xs).proc x := by
  simp [Filter.procAll]

/-- Samples leave the coefficients as they are (R96). -/
theorem Filter.procAll_coef (f : Filter c) (xs : List (BitVec c.sw)) :
    (f.procAll xs).coef = f.coef := by
  induction xs generalizing f with
  | nil => rfl
  | cons x xs ih => exact ih (f.proc x)

theorem Filter.procAll_hist_length (f : Filter c) (xs : List (BitVec c.sw)) :
    (f.procAll xs).hist.length = f.hist.length := by
  induction xs generalizing f with
  | nil => rfl
  | cons x xs ih => exact (ih (f.proc x)).trans List.length_set

theorem Filter.procAll_create_wc (cs : List (BitVec c.cw)) (xs : List (BitVec c.sw)) :
    ((Filter.create cs).procAll xs).wc = xs.length % cs.length := by
  induction xs using List.reverseRecOn with
  | nil => exact (Nat.zero_mod _).symm
  | append_singleton xs x ih =>
    have htaps : ((Filter.create cs).procAll xs).coef.length = cs.length :=
      congrArg List.length (Filter.procAll_coef _ xs)
    calc ((Filter.create cs).procAll (xs ++ [x])).wc
        = ((Filter.create cs).procAll xs).advance.wc := by rw [Filter.procAll_concat]; rfl
      _ = nextCursor (xs.length % cs.length) cs.length := by
          rw [Filter.advance, Filter.taps, ih, htaps]
      _ = (xs ++ [x]).length % cs.length := by rw [nextCursor_mod, List.length_append]; rfl

/-- The history by age after one more sample (R33, R104): at age 1 it is new, and at age `j + 1`
what was at age `j`. -/
theorem Filter.proc_hist_readIndex {f : Filter c} {n j : Nat} (x : BitVec c.sw)
    (hlen : f.hist.length = n) (hwc : f.wc < n) (hj : j < n) :
    (f.proc x).hist[readIndex (nextCursor f.wc n) (j + 1) n]? =
      if j = 0 then some x else f.hist[readIndex f.wc j n]? := by
  have hset : (f.proc x).hist = f.hist.set f.wc x := rfl
  rw [readIndex_nextCursor_succ _ _ (by omega), hset, readIndex_eq hwc hj]
  by_cases h0 : j = 0
  · rw [if_pos h0, if_pos (by omega), h0, Nat.sub_zero, List.getElem?_set_self (by omega)]
  · rw [if_neg h0]
    refine List.getElem?_set_ne ?_
    split <;> omega

/-- The history by age (R34): by induction on the samples, each new one making all others older. -/
theorem Filter.procAll_create_hist (cs : List (BitVec c.cw)) (xs : List (BitVec c.sw)) {a : Nat}
    (h1 : 1 ≤ a) (ha : a ≤ cs.length) :
    ((Filter.create cs).procAll xs).hist[readIndex (xs.length % cs.length) a cs.length]? =
      some (if a ≤ xs.length then xs.getD (xs.length - a) 0 else c.num.zeroS) := by
  obtain ⟨j, rfl⟩ : ∃ j, a = j + 1 := ⟨a - 1, by omega⟩
  induction xs using List.reverseRecOn generalizing j with
  | nil =>
    have hi := readIndex_lt (0 % cs.length) (j + 1) (n := cs.length) (by omega)
    exact List.getElem?_replicate_of_lt hi
  | append_singleton xs x ih =>
    have hwc := Filter.procAll_create_wc cs xs
    have hlen : ((Filter.create cs).procAll xs).hist.length = cs.length := by
      simp [Filter.procAll_hist_length, Filter.create]
    rw [Filter.procAll_concat, List.length_append, List.length_singleton, ← nextCursor_mod, ← hwc,
      Filter.proc_hist_readIndex x hlen (by rw [hwc]; exact Nat.mod_lt _ (by omega)) (by omega)]
    cases j with
    | zero => simp
    | succ j =>
      rw [if_neg (by omega), hwc, ih j (by omega) (by omega), Nat.add_sub_add_right]
      by_cases hk : j + 1 ≤ xs.length
      · rw [if_pos hk, if_pos (by omega), List.getD_append _ _ _ _ (by omega)]
      · rw [if_neg hk, if_neg (by omega)]

/-- Settles O45, from the cursor, the two lengths and the history by age. -/
theorem historyHoldsTheRecentSamples : Obligations.HistoryHoldsTheRecentSamples := by
  intro c cs xs _
  refine ⟨Filter.procAll_create_wc cs xs, Filter.procAll_coef _ xs, ?_,
    fun a => Filter.procAll_create_hist cs xs⟩
  rw [Filter.procAll_hist_length]
  exact List.length_replicate

end Sys2Proof.Machine
end

section
/-! Proofs about the storage chapter (20_memory.md): the wrapping read pointer (R59), the cells and
the cursor while a filter lives (R55), and the absence of faults (R60). -/

namespace Sys2Proof.Machine

variable {c : Config} {e e' : Engine c}

/-! ## The read pointer -/

/-- One step of the wrapping pointer goes to the sample that is one older (R58, R59). -/
theorem nextPointer_readIndex (wc j : Nat) {n : Nat} (hn : 1 ≤ n) :
    nextPointer (readIndex wc j n) n = readIndex wc (j + 1) n := by
  obtain ⟨q, hq⟩ : (n : Int) ∣ (wc - j : Int) - readIndex wc j n := dvd_sub_modN _ hn
  have hlt := readIndex_lt wc j hn
  unfold nextPointer
  split
  case isTrue h0 =>
    refine (modN_eq_of_dvd_sub (by omega) ⟨q - 1, ?_⟩).symm
    push_cast [hn]
    rw [h0] at hq
    linear_combination hq
  case isFalse h0 =>
    refine (modN_eq_of_dvd_sub (by omega) ⟨q, ?_⟩).symm
    push_cast [Nat.one_le_iff_ne_zero.2 h0]
    linear_combination hq

/-- Settles O44, by induction on the steps of the pointer; it starts at the cursor, the index of
age 0. -/
theorem readPointerIsTheCircularIndex : Obligations.ReadPointerIsTheCircularIndex := by
  intro n wc j hwc _
  have hn : 1 ≤ n := Nat.zero_lt_of_lt hwc
  induction j with
  | zero => rw [readIndex_eq hwc hn, if_pos (Nat.zero_le _), Nat.sub_zero]; rfl
  | succ j ih => rw [readPointer, ih (by omega), nextPointer_readIndex wc j hn]

/-! ## The storage while a filter lives -/

/-- A header step that leaves a filter alive leaves the whole storage alone (R82, R97). -/
theorem Engine.headerStep_storage {i : Instr} (hv : (e.headerStep i).valid = true) :
    (e.headerStep i).coef = e.coef ∧ (e.headerStep i).hist = e.hist ∧
      (e.headerStep i).wc = e.wc ∧ (e.headerStep i).N = e.N := by
  cases i with
  | create n =>
    dsimp only [Engine.headerStep] at hv ⊢
    obtain ⟨-, heq⟩ | ⟨-, -, heq⟩ | ⟨-, -, heq⟩ := e.createHeader_cases n <;> rw [heq] at hv ⊢
    · exact ⟨rfl, rfl, rfl, rfl⟩
    · exact ⟨rfl, rfl, rfl, rfl⟩
    · cases hv
  | proc x =>
    dsimp only [Engine.headerStep]
    obtain ⟨-, heq⟩ | ⟨-, heq⟩ := e.procHeader_cases x <;> rw [heq] <;>
      exact ⟨rfl, rfl, rfl, rfl⟩
  | rsvd0 d => exact ⟨rfl, rfl, rfl, rfl⟩
  | rsvd3 d => exact ⟨rfl, rfl, rfl, rfl⟩

/-- A discard step leaves the storage alone (R94). -/
theorem Engine.discardStep_storage (w : BitVec c.cmdw) :
    (e.discardStep w).coef = e.coef ∧ (e.discardStep w).hist = e.hist ∧
      (e.discardStep w).wc = e.wc ∧ (e.discardStep w).N = e.N := by
  unfold Engine.discardStep
  split <;> exact ⟨rfl, rfl, rfl, rfl⟩

/-- A MAC step leaves the storage alone (R103). -/
theorem Engine.macStep_storage {draw : BitVec 53} (hok : e.macStep draw = .ok e') :
    e'.coef = e.coef ∧ e'.hist = e.hist ∧ e'.wc = e.wc ∧ e'.N = e.N := by
  obtain ⟨k, x, -, -, -, -, rfl⟩ := Engine.macStep_ok.1 hok
  split <;> exact ⟨rfl, rfl, rfl, rfl⟩

/-- What an edge can do to the storage of a filter that lives on (R55, R96): WRITE rewrites the
history cell at the cursor, ADV moves the cursor, and nothing else is written. -/
theorem Engine.Inv.edge_storage (h : e.Inv) {draw : BitVec 53} {i : Inputs c}
    (hedge : e.edge draw i = .ok e') (hv : e.valid = true) (hv' : e'.valid = true) :
    e'.coef = e.coef ∧ e'.N = e.N ∧
      (e'.hist = e.hist ∨ e.phase = .write ∧ e'.hist = e.hist.write e.wc.toNat e.xin) ∧
      (e'.wc = e.wc ∨ e.phase = .adv) := by
  unfold Engine.edge at hedge
  split at hedge
  case h_1 => cases hedge; exact ⟨rfl, rfl, .inl rfl, .inl rfl⟩
  case h_2 m hmove =>
    have hen := Inputs.move_eq_some hmove
    cases m with
    | reset => cases hedge; cases hv'
    | header w =>
      cases hedge
      obtain ⟨hcoef, hhist, hwc, hN⟩ := Engine.headerStep_storage hv'
      exact ⟨hcoef, hN, .inl hhist, .inl hwc⟩
    | load w =>
      obtain ⟨hno, -⟩ := h.loading (of_decide_eq_true hen)
      rw [hv] at hno
      cases hno
    | discard w =>
      cases hedge
      obtain ⟨hcoef, hhist, hwc, hN⟩ := e.discardStep_storage w
      exact ⟨hcoef, hN, .inl hhist, .inl hwc⟩
    | write =>
      obtain ⟨-, rfl⟩ := Engine.writeStep_ok.1 hedge
      exact ⟨rfl, rfl, .inr ⟨of_decide_eq_true hen, rfl⟩, .inl rfl⟩
    | mac =>
      obtain ⟨hcoef, hhist, hwc, hN⟩ := Engine.macStep_storage hedge
      exact ⟨hcoef, hN, .inl hhist, .inl hwc⟩
    | adv => cases hedge; exact ⟨rfl, rfl, .inl rfl, .inr (of_decide_eq_true hen)⟩
    | take => cases hedge; exact ⟨rfl, rfl, .inl rfl, .inl rfl⟩

/-- Settles O42: of the two writes that an edge can make to the storage of a living filter, one is
to the cell at the cursor and the other is of the cursor, in ADV. -/
theorem historyIsNeverShifted : Obligations.HistoryIsNeverShifted := by
  intro c draw i e e' h hedge hv hv'
  obtain ⟨-, -, hhist, hwc⟩ := h.edge_storage hedge hv hv'
  refine ⟨fun k hk => ?_, hwc.resolve_right⟩
  obtain hhist | ⟨hwrite, hhist⟩ := hhist <;> rw [hhist]
  exact Memory.read_write_other _ _ (hk.resolve_right fun hne => hne hwrite)

/-! ## No edge faults -/

/-- In LOAD the cell to write exists (R60). -/
theorem Engine.Inv.loadStep_isOk (h : e.Inv) (hp : e.phase = .load) (w : BitVec c.cmdw) :
    ∃ e', e.loadStep w = .ok e' := by
  obtain ⟨-, hj, -⟩ := h.loading hp
  obtain ⟨-, hmax⟩ := h.count (.inr hp)
  exact ⟨_, Engine.loadStep_ok.2 ⟨hj.trans_le hmax, rfl⟩⟩

/-- In WRITE the cell at the cursor exists (R60). -/
theorem Engine.Inv.writeStep_isOk (h : e.Inv) (hv : e.valid = true) (draw : BitVec 53) :
    ∃ e', e.writeStep draw = .ok e' := by
  obtain ⟨-, hmax⟩ := h.count (.inl hv)
  exact ⟨_, Engine.writeStep_ok.2 ⟨(h.cursor hv).trans_le hmax, rfl⟩⟩

/-- In MAC the two cells to read exist and hold a value (R60, R167). -/
theorem Engine.Inv.macStep_isOk (h : e.Inv) (hp : e.phase = .mac) (draw : BitVec 53) :
    ∃ e', e.macStep draw = .ok e' := by
  have hv := h.processing (by rw [hp]; rfl)
  have hj := h.accumulating hp
  obtain ⟨hpos, hmax⟩ := h.count (.inl hv)
  have hi := readIndex_lt e.wc.toNat e.j.toNat hpos
  obtain ⟨k, hk⟩ := Option.isSome_iff_exists.1 (h.cells hv _ hj).1
  obtain ⟨x, hx⟩ := Option.isSome_iff_exists.1 (h.cells hv _ hi).2
  exact ⟨_, Engine.macStep_ok.2 ⟨k, x, hj.trans_le hmax, hk, hi.trans_le hmax, hx, rfl⟩⟩

theorem Engine.Inv.apply_isOk (h : e.Inv) {m : Move c} (hm : m.enabledIn e.phase = true)
    (draw : BitVec 53) : ∃ e', e.apply draw m = .ok e' := by
  cases m with
  | reset => exact ⟨_, rfl⟩
  | header w => exact ⟨_, rfl⟩
  | load w => exact h.loadStep_isOk (of_decide_eq_true hm) w
  | discard w => exact ⟨_, rfl⟩
  | write =>
    have hp : e.phase = .write := of_decide_eq_true hm
    exact h.writeStep_isOk (h.processing (by rw [hp]; rfl)) draw
  | mac => exact h.macStep_isOk (of_decide_eq_true hm) draw
  | adv => exact ⟨_, rfl⟩
  | take => exact ⟨_, rfl⟩

theorem Engine.Inv.edge_isOk (h : e.Inv) (draw : BitVec 53) (i : Inputs c) :
    ∃ e', e.edge draw i = .ok e' := by
  unfold Engine.edge
  split
  case h_1 => exact ⟨e, rfl⟩
  case h_2 m hm => exact h.apply_isOk (Inputs.move_eq_some hm) draw

/-- Settles O39: a step is an edge of the engine, and an edge makes a move enabled in its phase,
whose cells the invariant has exist and hold values. -/
theorem noStepStopsTheMachine : Obligations.NoStepStopsTheMachine := by
  refine ⟨fun s h => ?_, fun c draw i e h => h.edge_isOk draw i⟩
  obtain ⟨e', hedge⟩ := Engine.Inv.edge_isOk h (Config.freeNan 0) s.offer
  exact ⟨_, by rw [stepIsAnEdgeOfTheEngine s, hedge, State.withEngine_ok]⟩

end Sys2Proof.Machine
end

section
/-! Proofs about the storage chapter (20_memory.md), continued: commands take effect one at a time
(R62). A whole command, from its first word to its response, on the engine of any configuration. -/

namespace Sys2Proof

/-- Reading a header word back (R71 to R73). -/
theorem decodeHeader_encodeHeader {dw : Nat} {i : Instr} (hi : i.wf dw = true) :
    decodeHeader dw (encodeHeader dw i) = i := by
  obtain ⟨hop, hdata⟩ := Laws.HeaderFields.of_instr i dw
  cases i <;> simp [decodeHeader, hop, hdata hi, Instr.op, Instr.data]

end Sys2Proof

namespace Sys2Proof.Machine

variable {c : Config} {e e' : Engine c}

/-! ## The first cells of a memory that is being loaded -/

section firstCells
variable {w : Nat} (m : Memory w) (n : Nat)

theorem Memory.firstCells_succ :
    m.firstCells (n + 1) = m.firstCells n ++ [(m.read n).getD 0] := by
  simp [Memory.firstCells, List.range_succ]

/-- Writing the cell behind the first `n` adds it to them (R92). -/
theorem Memory.firstCells_write_next (v : BitVec w) :
    (m.write n v).firstCells (n + 1) = m.firstCells n ++ [v] := by
  rw [Memory.firstCells_succ, Memory.read_write_same, Memory.firstCells_write,
    List.set_eq_of_length_le (Memory.firstCells_length n m).le, Option.getD_some]

/-- Forgetting the cells at `n` and above leaves the first `n` (R90). -/
theorem Memory.firstCells_keepBelow : (m.keepBelow n).firstCells n = m.firstCells n := by
  refine List.map_congr_left fun i hi => ?_
  rw [Memory.read_keepBelow, if_pos (List.mem_range.1 hi)]

end firstCells

/-! ## The end of a command -/

/-- The engine offers the response `r` and holds the filter `f`: what the command-level functions
speak of (R90, R100). -/
structure Engine.Answers (e : Engine c) (r : Response c) (f : Option (Filter c)) : Prop where
  phase : e.phase = .resp
  rspValid : e.rspValid = true
  rspWord : e.rspWord = r.word
  filter : e.filter = f

theorem Engine.respond_answers (s : Status) (d : BitVec c.aw) (e : Engine c) :
    (e.respond s d).Answers ⟨s, d⟩ e.filter :=
  ⟨rfl, rfl, rfl, rfl⟩

/-! ## The words of a command -/

/-- The engine accepts the words `ws` one after another, each in a phase with `cmd_ready = 1`, and
is then `e'` (R43, R44). -/
inductive Engine.Accepts : List (BitVec c.cmdw) → Engine c → Engine c → Prop
  | nil (e : Engine c) : Accepts [] e e
  | cons {w : BitVec c.cmdw} {ws : List (BitVec c.cmdw)} {e e₁ e' : Engine c}
      (ready : e.phase.cmdReady = true)
      (edge : ∀ draw, e.edge draw ⟨false, true, w, false⟩ = .ok e₁)
      (rest : Accepts ws e₁ e') : Accepts (w :: ws) e e'

theorem Engine.accepts_header (hp : e.phase = .idle) {i : Instr} (hi : i.wf c.dw = true)
    {e₁ : Engine c} (hstep : e.headerStep i = e₁) {ws : List (BitVec c.cmdw)}
    (h : Engine.Accepts ws e₁ e') :
    Engine.Accepts (encodeHeader c.dw i :: ws) e e' :=
  .cons (by rw [hp]; rfl)
    (fun _ => by rw [Engine.edge_idle hp, decodeHeader_encodeHeader hi, hstep]) h

/-- The engine after a load step that is not the last (R92). -/
def Engine.loadMore (w : BitVec c.cmdw) (e : Engine c) : Engine c :=
  { e with
    coef := e.coef.write e.j.toNat (coefOperand c w)
    hist := e.hist.write e.j.toNat c.num.zeroS
    j := e.j + 1 }

/-- Loading: the payload words still to come, one for each cell from `j` on, complete the filter
(R92, R93). -/
theorem Engine.accepts_load {ws : List (BitVec c.cmdw)} (hne : ws ≠ []) (hp : e.phase = .load)
    (hN : e.N.toNat = e.j.toNat + ws.length) (hmax : e.N.toNat ≤ c.nmax) :
    ∃ e', Engine.Accepts ws e e' ∧
      e'.Answers ⟨.ok, 0⟩ (some
        { coef := e.coef.firstCells e.j.toNat ++ ws.map (coefOperand c)
          hist := e.hist.firstCells e.j.toNat ++ List.replicate ws.length c.num.zeroS
          wc := 0 }) := by
  induction ws generalizing e with
  | nil => exact absurd rfl hne
  | cons w ws ih =>
    rw [List.length_cons] at hN
    have hready : e.phase.cmdReady = true := by rw [hp]; rfl
    have hstep := Engine.loadStep_ok (w := w).2 ⟨show e.j.toNat < c.nmax by omega, rfl⟩
    by_cases hlast : ws = []
    · subst hlast
      rw [List.length_nil] at hN
      rw [if_neg (by omega)] at hstep
      refine ⟨_, .cons hready (fun _ => (Engine.edge_load hp w).trans hstep) (.nil _),
        rfl, rfl, rfl, ?_⟩
      rw [Engine.filter_of_valid rfl]
      simp only [Engine.createDone_coef, Engine.createDone_hist, Engine.createDone_N,
        Engine.createDone_wc, Memory.firstCells_keepBelow, hN, Memory.firstCells_write_next]
      rfl
    · have hpos := List.length_pos_iff.2 hlast
      rw [if_pos (by omega)] at hstep
      have hj : (e.loadMore w).j.toNat = e.j.toNat + 1 := toNat_succ_of_lt (b := e.N) (by omega)
      obtain ⟨e', hacc, hans⟩ := ih (e := e.loadMore w) hlast hp
        (by rw [hj]; change e.N.toNat = _; omega) hmax
      refine ⟨e', .cons hready (fun _ => (Engine.edge_load hp w).trans hstep) hacc, ?_⟩
      rw [hj] at hans
      simpa [Engine.loadMore, Memory.firstCells_write_next, List.replicate_succ] using hans

/-- Discarding: as many payload words as `rem` counts end the command with CAPACITY (R94). -/
theorem Engine.accepts_discard {ws : List (BitVec c.cmdw)} (hne : ws ≠ []) (hp : e.phase = .discard)
    (hrem : e.rem.toNat = ws.length) :
    ∃ r, Engine.Accepts ws e (({ e with rem := r }).raiseError .capacity) := by
  induction ws generalizing e with
  | nil => exact absurd rfl hne
  | cons w ws ih =>
    rw [List.length_cons] at hrem
    have hready : e.phase.cmdReady = true := by rw [hp]; rfl
    by_cases hlast : ws = []
    · subst hlast
      rw [List.length_nil] at hrem
      have hstep : e.discardStep w = e.raiseError .capacity := if_neg (by omega)
      exact ⟨e.rem, .cons hready (fun _ => by rw [Engine.edge_discard hp, hstep]) (.nil _)⟩
    · have hpos := List.length_pos_iff.2 hlast
      have hstep : e.discardStep w = { e with rem := e.rem - 1 } := if_pos (by omega)
      obtain ⟨r, hacc⟩ := ih (e := { e with rem := e.rem - 1 }) hlast hp
        (by rw [toNat_pred_of_pos (by omega)]; omega)
      exact ⟨r, .cons hready (fun _ => by rw [Engine.edge_discard hp, hstep]) hacc⟩

/-- A whole `CREATE` (R90): empty, above the capacity, or in range. -/
theorem Engine.accepts_create (hp : e.phase = .idle) {ws : List (BitVec c.cmdw)}
    (hlen : ws.length < 2 ^ c.dw) (draw : BitVec 53) :
    ∃ e', Engine.Accepts (encodeHeader c.dw (.create ws.length) :: ws) e e' ∧
      e'.Answers ((Command.create (ws.map (coefOperand c))).run draw e.filter).2
        ((Command.create (ws.map (coefOperand c))).run draw e.filter).1 := by
  have hi : (Instr.create ws.length).wf c.dw = true := decide_eq_true hlen
  simp only [Command.run, List.length_map]
  obtain ⟨h0, hstep⟩ | ⟨h0, hcap, hstep⟩ | ⟨h0, hmax, hstep⟩ := e.createHeader_cases ws.length
  · rw [if_pos h0]
    obtain rfl := List.length_eq_zero_iff.1 h0
    exact ⟨_, Engine.accepts_header hp hi hstep (.nil _), e.respond_answers _ _⟩
  · rw [if_neg h0, if_pos hcap]
    obtain ⟨r, hacc⟩ := Engine.accepts_discard
      (e := { e with rem := BitVec.ofNat c.dw ws.length, phase := .discard })
      (fun h => h0 (List.length_eq_zero_iff.2 h)) rfl
      (by rw [BitVec.toNat_ofNat, Nat.mod_eq_of_lt hlen])
    exact ⟨_, Engine.accepts_header hp hi hstep hacc, Engine.respond_answers _ _ _⟩
  · rw [if_neg h0, if_neg hmax.not_gt]
    have hN : (BitVec.ofNat c.nw ws.length).toNat = ws.length := by
      rw [BitVec.toNat_ofNat, Nat.mod_eq_of_lt (c.lt_two_pow_nw hmax)]
    obtain ⟨e', hacc, hans⟩ := Engine.accepts_load
      (e := { e with valid := false, N := BitVec.ofNat c.nw ws.length, j := 0, phase := .load })
      (fun h => h0 (List.length_eq_zero_iff.2 h)) rfl (by simp [hN]) (by rwa [hN])
    refine ⟨e', Engine.accepts_header hp hi hstep hacc, ?_⟩
    simpa [Memory.firstCells, Filter.create] using hans

/-! ## The own steps of a `PROC` -/

/-- The filter in the storage (R35): that of the engine, when there is one. -/
def Engine.stored (e : Engine c) : Filter c :=
  ⟨e.coef.firstCells e.N.toNat, e.hist.firstCells e.N.toNat, e.wc.toNat⟩

theorem Engine.filter_eq_stored (hv : e.valid = true) : e.filter = some e.stored :=
  Engine.filter_of_valid hv

@[simp] theorem Engine.stored_taps (e : Engine c) : e.stored.taps = e.N.toNat :=
  Memory.firstCells_length _ _

/-- The accumulator when `k` MAC steps have been made, the first of them at edge `d` (R103). -/
def Engine.accAfter (d : Nat) (e : Engine c) : Nat → BitVec c.aw
  | 0 => e.acc
  | k + 1 => macSum c (Config.freeNan (d + k)) (e.accAfter d k) (e.stored.coef.getD k 0)
      (e.stored.hist.getD (readIndex e.wc.toNat k e.N.toNat) 0)

/-- The engine when `k` MAC steps have been made, the first of them at edge `d` (R103). -/
def Engine.afterMacs (d : Nat) (e : Engine c) (k : Nat) : Engine c :=
  { e with
    acc := e.accAfter d k
    j := BitVec.ofNat c.nw k
    phase := if k < e.N.toNat then .mac else .adv }

/-- The engine after the write step (R102). -/
def Engine.written (draw : BitVec 53) (e : Engine c) : Engine c :=
  { e with
    hist := e.hist.write e.wc.toNat e.xin
    acc := c.num.encA draw c.num.zeroA
    j := 0
    phase := .mac }

theorem Engine.StorageInv.read_coef (h : e.StorageInv) (hv : e.valid = true) {k : Nat}
    (hk : k < e.N.toNat) : e.coef.read k = some (e.stored.coef.getD k 0) := by
  obtain ⟨a, ha⟩ := Option.isSome_iff_exists.1 (h.cells hv k hk).1
  rw [Engine.stored, Memory.firstCells_getD hk, ha, Option.getD_some]

theorem Engine.StorageInv.read_hist (h : e.StorageInv) (hv : e.valid = true) {k : Nat}
    (hk : k < e.N.toNat) : e.hist.read k = some (e.stored.hist.getD k 0) := by
  obtain ⟨a, ha⟩ := Option.isSome_iff_exists.1 (h.cells hv k hk).2
  rw [Engine.stored, Memory.firstCells_getD hk, ha, Option.getD_some]

theorem Engine.StorageInv.edge_afterMacs (h : e.StorageInv) (hv : e.valid = true) {d k : Nat}
    (hk : k < e.N.toNat) :
    (e.afterMacs d k).edge (Config.freeNan (d + k)) (Inputs.silent c) =
      .ok (e.afterMacs d (k + 1)) := by
  obtain ⟨hpos, hmax⟩ := h.count hv
  have hi := readIndex_lt e.wc.toNat k hpos
  have hj : (e.afterMacs d k).j.toNat = k := by
    rw [Engine.afterMacs, BitVec.toNat_ofNat,
      Nat.mod_eq_of_lt (c.lt_two_pow_nw (hk.le.trans hmax))]
  rw [Engine.edge_mac (if_pos hk), Engine.macStep_ok, hj]
  refine ⟨_, _, hk.trans_le hmax, h.read_coef hv hk, hi.trans_le hmax, h.read_hist hv hi, ?_⟩
  change _ = if k + 1 < e.N.toNat then _ else _
  simp only [Engine.afterMacs, BitVec.ofNat_add, if_pos hk]
  split <;> rfl

theorem Engine.StorageInv.ownSteps_afterMacs (h : e.StorageInv) (hv : e.valid = true) (d : Nat)
    {k : Nat} (hk : k ≤ e.N.toNat) :
    (e.afterMacs d 0).ownSteps d k = .ok (e.afterMacs d k) := by
  induction k with
  | zero => rfl
  | succ k ih =>
    rw [Engine.ownSteps_add (ih (by omega)), Engine.ownSteps_succ (h.edge_afterMacs hv hk)]
    rfl

/-- From WRITE on: the write step and `k` MAC steps (R106). -/
theorem Engine.Inv.ownSteps_write (h : e.Inv) (hp : e.phase = .write) (d : Nat) {k : Nat}
    (hk : k ≤ e.N.toNat) :
    e.ownSteps d (k + 1) = .ok ((e.written (Config.freeNan d)).afterMacs (d + 1) k) := by
  have hv := h.processing (by rw [hp]; rfl)
  obtain ⟨hpos, hmax⟩ := h.count (.inl hv)
  have hedge : e.edge (Config.freeNan d) (Inputs.silent c) =
      .ok (e.written (Config.freeNan d)) := by
    rw [Engine.edge_write hp, Engine.writeStep_ok]
    exact ⟨(h.cursor hv).trans_le hmax, rfl⟩
  have hstart : (e.written (Config.freeNan d)).afterMacs (d + 1) 0 =
      e.written (Config.freeNan d) := by
    rw [Engine.afterMacs, if_pos (show 0 < (e.written (Config.freeNan d)).N.toNat from hpos)]
    rfl
  have hs : (e.written (Config.freeNan d)).StorageInv :=
    { h.storage.write_hist hv (h.cursor hv) e.xin with }
  have hmacs := hs.ownSteps_afterMacs hv (d + 1) hk
  rw [hstart] at hmacs
  exact (Engine.ownSteps_succ hedge).trans hmacs

/-- The advance step ends the `N + 2` own steps of a `PROC` (R106). -/
theorem Engine.Inv.ownSteps_proc (h : e.Inv) (hp : e.phase = .write) (d : Nat) :
    e.ownSteps d (e.N.toNat + 2) =
      .ok ((e.written (Config.freeNan d)).afterMacs (d + 1) e.N.toNat).advStep := by
  rw [Engine.ownSteps_add (l := 1) (h.ownSteps_write hp d le_rfl),
    Engine.ownSteps_succ (Engine.edge_adv (if_neg (lt_irrefl _)))]
  rfl

/-- All of these steps are the engine's own (R178). -/
theorem Engine.Inv.ownSteps_own (h : e.Inv) (hp : e.phase = .write) (d : Nat) {i : Nat}
    (hi : i < e.N.toNat + 2) : ∃ e₁, e.ownSteps d i = .ok e₁ ∧ e₁.phase.own = true := by
  cases i with
  | zero => exact ⟨e, rfl, by rw [hp]; rfl⟩
  | succ k =>
    refine ⟨_, h.ownSteps_write hp d (by omega), ?_⟩
    dsimp only [Engine.afterMacs]
    split <;> rfl

/-- Where a running total survives its encoding, the accumulator holds the encoding of the filter's
running total (R115, R124). -/
theorem Engine.accAfter_succ (hf : c.num.Faithful) {draw : BitVec 53}
    (hacc : e.acc = c.num.encA draw c.num.zeroA) (d k : Nat) :
    e.accAfter d (k + 1) = c.num.encA (Config.freeNan (d + k)) (e.stored.total (k + 1)) := by
  rw [Filter.total, Filter.product, Engine.stored_taps]
  induction k with
  | zero => rw [Engine.accAfter, Engine.accAfter, hacc]; exact hf _ _ _ _
  | succ k ih =>
    rw [Engine.accAfter, ih, Filter.total, Filter.product, Engine.stored_taps]
    exact hf _ _ _ _

theorem Engine.stored_written (draw : BitVec 53) (e : Engine c) :
    (e.written draw).stored = e.stored.store e.xin := by
  simp only [Engine.stored, Engine.written, Filter.store, Memory.firstCells_write]

theorem Engine.StorageInv.filter_advStep (h : e.StorageInv) (hv : e.valid = true) :
    e.advStep.filter = some e.stored.advance := by
  obtain ⟨hpos, hmax⟩ := h.count hv
  have hlt := nextCursor_lt e.wc.toNat hpos
  have hwc : e.advStep.wc.toNat = nextCursor e.wc.toNat e.N.toNat := by
    rw [Engine.advStep_wc, BitVec.toNat_ofNat,
      Nat.mod_eq_of_lt (c.lt_two_pow_iw (hlt.trans_le hmax))]
  rw [Engine.filter_eq_stored (e := e.advStep) hv, Filter.advance, Engine.stored_taps,
    Engine.stored, hwc]
  rfl

/-- The own steps of a `PROC` have the effect of R100 on the filter, and answer its output. -/
theorem Engine.Inv.ownSteps_answers (h : e.Inv) (hf : c.num.Faithful) (hp : e.phase = .write)
    (d : Nat) : ∃ e', e.ownSteps d (e.N.toNat + 2) = .ok e' ∧
      e'.Answers ⟨.ok, c.num.encA (Config.freeNan (d + e.N.toNat)) (e.stored.output e.xin)⟩
        (some (e.stored.proc e.xin)) := by
  have hv := h.processing (by rw [hp]; rfl)
  obtain ⟨hpos, -⟩ := h.count (.inl hv)
  obtain ⟨n, hn⟩ := Nat.exists_eq_add_of_le' hpos
  refine ⟨_, h.ownSteps_proc hp d, rfl, rfl, ?_, ?_⟩
  · have hacc : (e.written (Config.freeNan d)).accAfter (d + 1) (n + 1) = _ :=
      Engine.accAfter_succ hf rfl (d + 1) n
    rw [Engine.stored_written] at hacc
    rw [hn, Filter.output, Engine.stored_taps, hn, show d + (n + 1) = d + 1 + n by omega, ← hacc]
    rfl
  · have hs : ((e.written (Config.freeNan d)).afterMacs (d + 1) e.N.toNat).StorageInv :=
      { h.storage.write_hist hv (h.cursor hv) e.xin with }
    rw [hs.filter_advStep hv, Filter.proc, ← Engine.stored_written (Config.freeNan d)]
    rfl

end Sys2Proof.Machine
end

section
/-! Proofs about the storage chapter (20_memory.md), continued: whole commands on the default
machine, and the run of a list of them from reset (R62). -/

namespace Sys2Proof.Machine

/-! ## Runs of the machine -/

theorem State.run_succ_eq_next {s t : State} {k : Nat} :
    s.run (k + 1) = .next t ↔ ∃ s₁, step s = .next s₁ ∧ s₁.run k = .next t := by
  have hcore : Sys2Proof.core.step s = step s := rfl
  simp only [State.run, Host.Core.run, hcore]
  cases step s <;> simp

/-- Runs one after another. -/
theorem State.run_add {s t u : State} {k l : Nat} (hk : s.run k = .next t)
    (hl : t.run l = .next u) : s.run (k + l) = .next u := by
  induction k generalizing s with
  | zero => cases hk; rwa [Nat.zero_add]
  | succ k ih =>
    obtain ⟨s₁, hstep, hrun⟩ := State.run_succ_eq_next.1 hk
    rw [Nat.add_right_comm]
    exact State.run_succ_eq_next.2 ⟨s₁, hstep, ih hrun⟩

theorem State.run_one {s t : State} (h : step s = .next t) : s.run 1 = .next t :=
  State.run_succ_eq_next.2 ⟨t, h, rfl⟩

theorem State.Inv.run {s t : State} {k : Nat} (hs : s.Inv) (h : s.run k = .next t) : t.Inv := by
  induction k generalizing s with
  | zero => cases h; exact hs
  | succ k ih =>
    obtain ⟨s₁, hstep, hrun⟩ := State.run_succ_eq_next.1 h
    exact ih (everyStepKeepsTheInvariant _ _ hs hstep) hrun

/-- INT draws nothing: an edge of the default engine is the same whatever the draw (R128). -/
theorem Engine.edge_draw (draw draw' : BitVec 53) (i : Inputs Config.default)
    (e : Engine Config.default) : e.edge draw i = e.edge draw' i := by
  unfold Engine.edge
  split
  case h_1 => rfl
  case h_2 m _ => cases m <;> rfl

theorem Command.run_draw (draw draw' : BitVec 53) (k : Command Config.default)
    (f : Option (Filter Config.default)) : k.run draw f = k.run draw' f := by
  cases k <;> rfl

/-! ## The steps that the host takes part in -/

section
variable {e e' : Engine Config.default} {rest : List HostMove}
  {taken : List (BitVec Config.default.rspw)}

/-- A word offered in a phase with `cmd_ready = 1` is accepted (R43, R44). -/
theorem step_word {w : BitVec Config.default.cmdw} (hready : e.phase.cmdReady = true)
    (hedge : e.edge (Config.freeNan 0) ⟨false, true, w, false⟩ = .ok e') :
    step ⟨e, .word w :: rest, taken⟩ = .next ⟨e', rest, taken⟩ := by
  have hhost : State.hostPart ⟨e, .word w :: rest, taken⟩ = ⟨e, rest, taken⟩ := by
    rw [State.hostPart, State.restOfScript_word (w := w) (rest := rest) rfl, if_pos hready,
      State.takenAfter_word (w := w) (rest := rest) rfl]
  have hoffer : State.offer ⟨e, .word w :: rest, taken⟩ = ⟨false, true, w, false⟩ := rfl
  rw [stepIsAnEdgeOfTheEngine, hhost, hoffer, hedge, State.withEngine_ok]

theorem State.run_accepts {ws : List (BitVec Config.default.cmdw)} (h : Engine.Accepts ws e e') :
    State.run ws.length ⟨e, ws.map HostMove.word ++ rest, taken⟩ = .next ⟨e', rest, taken⟩ := by
  induction h with
  | nil e => rfl
  | cons ready edge _ ih => exact State.run_succ_eq_next.2 ⟨_, step_word ready (edge _), ih⟩

/-- The host takes the response offered (R87). -/
theorem step_take (hp : e.phase = .resp) (hr : e.rspValid = true) :
    step ⟨e, .take :: rest, taken⟩ = .next ⟨e.endResponse, rest, taken ++ [e.rspWord]⟩ := by
  have hhost : State.hostPart ⟨e, .take :: rest, taken⟩ = ⟨e, rest, taken ++ [e.rspWord]⟩ := by
    simp [State.hostPart, State.restOfScript, State.takenAfter, State.offer, HostMove.doneIn,
      HostMove.inputs, Engine.transferred, hp, hr]
  rw [stepIsAnEdgeOfTheEngine, hhost, Engine.edge_resp hp rfl, State.withEngine_ok]
  rfl

end

/-! ## The own steps of the engine -/

/-- In a phase with an own step the host, short of a reset, has no say (R178). -/
theorem Inputs.move_own {c : Config} {i : Inputs c} {p : Phase} (hr : i.rst = false)
    (hown : p.own = true) : i.move p = (Inputs.silent c).move p := by
  cases p <;> simp_all [Inputs.move, Inputs.silent, Phase.own]

/-- A quiet host does not reset, and in a phase with an own step its offer stays in the script. -/
theorem State.offer_of_quiet {s : State} (hq : s.quiet = true) (hown : s.engine.phase.own = true) :
    s.offer.rst = false ∧ s.restOfScript = s.script := by
  obtain ⟨e, script, taken⟩ := s
  have hready : e.phase.cmdReady = false := by
    cases hp : e.phase <;> simp_all [Phase.own, Phase.cmdReady]
  have hresp : e.phase ≠ .resp := fun hp => by simp_all [Phase.own]
  cases script with
  | nil => exact ⟨rfl, rfl⟩
  | cons m rest =>
    cases m with
    | reset => cases hq
    | word w => exact ⟨rfl, by simp [State.restOfScript, HostMove.doneIn, hready]⟩
    | take => exact ⟨rfl, by simp [State.restOfScript, HostMove.doneIn, hresp]⟩
    | pause => cases hq

/-- Under a quiet host an own step of the engine is the whole step: nothing is transferred (R43). -/
theorem step_own {s : State} {e' : Engine Config.default} (hs : s.Inv) (hq : s.quiet = true)
    (hown : s.engine.phase.own = true)
    (hedge : s.engine.edge (Config.freeNan 0) (Inputs.silent Config.default) = .ok e') :
    step s = .next { s with engine := e' } := by
  obtain ⟨hrst, hscript⟩ := State.offer_of_quiet hq hown
  have hvalid : s.engine.rspValid = false := hs.rspValid_eq_false fun hp => by
    rw [hp] at hown
    cases hown
  have hhost : s.hostPart = s := by
    simp [State.hostPart, hscript, State.takenAfter, Engine.transferred, hvalid]
  unfold Engine.edge at hedge
  rw [stepIsAnEdgeOfTheEngine, hhost, Engine.edge, Inputs.move_own hrst hown, hedge,
    State.withEngine_ok]

/-- Own steps of the engine one after another, under a host that is quiet. -/
theorem State.run_ownSteps {s : State} {e' : Engine Config.default} {d k : Nat} (hs : s.Inv)
    (hq : s.quiet = true)
    (hown : ∀ i, i < k → ∃ e₁, s.engine.ownSteps d i = .ok e₁ ∧ e₁.phase.own = true)
    (hok : s.engine.ownSteps d k = .ok e') : s.run k = .next { s with engine := e' } := by
  induction k generalizing e' with
  | zero => cases hok; rfl
  | succ k ih =>
    obtain ⟨e₁, he₁, hown₁⟩ := hown k (Nat.lt_succ_self k)
    have hrun := ih (fun i hi => hown i (by omega)) he₁
    have hs₁ := hs.run hrun
    obtain ⟨e₂, hedge⟩ := hs₁.edge_isOk (Config.freeNan (d + k)) (Inputs.silent _)
    obtain rfl : e₂ = e' := by
      rw [Engine.ownSteps_add he₁, Engine.ownSteps_succ hedge] at hok
      exact Except.ok.inj hok
    rw [Engine.edge_draw _ (Config.freeNan 0)] at hedge
    exact State.run_add hrun (State.run_one (step_own hs₁ hq hown₁ hedge))

end Sys2Proof.Machine

namespace Sys2Proof.Machine

variable {c : Config} {e e' : Engine c}

/-! ## Whole commands -/

/-- The coefficients of an assembled payload (R74, R84). -/
theorem coefOperand_map_encodePayload (cs : List (BitVec c.cw)) :
    (cs.map (encodePayload c.dw c.cw)).map (coefOperand c) = cs := by
  rw [List.map_map, List.map_congr_left (g := id), List.map_id]
  exact fun k _ => payloadCoef_encodePayload _ _ k (le_max_of_le_right (le_max_left _ _))

/-- A header that raises an error is the whole command (R82, R146). -/
theorem Engine.accepts_raiseError (hp : e.phase = .idle) {i : Instr} (hi : i.wf c.dw = true)
    {s : Status} (hstep : e.headerStep i = e.raiseError s) :
    ∃ e', Engine.Accepts [encodeHeader c.dw i] e e' ∧ e'.Answers ⟨s, 0⟩ e.filter :=
  ⟨_, Engine.accepts_header hp hi hstep (.nil _), e.respond_answers s 0⟩

/-- The commands that have no own steps: all but a `PROC` with a filter (R90, R100, R77). -/
theorem Command.accepted {k : Command c} (hk : k.wf = true) (hp : e.phase = .idle)
    (hno : ∀ x, k = .proc x → e.valid = false) (draw : BitVec 53) :
    ∃ e', Engine.Accepts k.words e e' ∧
      e'.Answers (k.run draw e.filter).2 (k.run draw e.filter).1 := by
  cases k with
  | create cs =>
    have hlen : (cs.map (encodePayload c.dw c.cw)).length < 2 ^ c.dw := by
      rw [List.length_map]; exact of_decide_eq_true hk
    have h := Engine.accepts_create hp hlen draw
    rwa [coefOperand_map_encodePayload, List.length_map] at h
  | proc x =>
    have hv := hno x rfl
    have hstep : e.headerStep (.proc x.toNat) = e.raiseError .noFilter :=
      if_neg (ne_true_of_eq_false hv)
    have h := Engine.accepts_raiseError hp hk hstep
    rw [Engine.filter_eq_none.2 hv] at h ⊢
    exact h
  | reserved0 d => exact Engine.accepts_raiseError hp hk rfl
  | reserved3 d => exact Engine.accepts_raiseError hp hk rfl

/-- The header of a `PROC` with a filter latches the sample (R101). -/
theorem Command.accepted_proc {x : BitVec c.sw} (hk : (Command.proc x).wf = true)
    (hp : e.phase = .idle) (hv : e.valid = true) :
    Engine.Accepts (Command.proc x).words e { e with xin := x, phase := .write } := by
  refine Engine.accepts_header hp hk ?_ (.nil _)
  have hx : sampleOperand c x.toNat = x := by simp [sampleOperand]
  obtain ⟨hno, -⟩ | ⟨-, hstep⟩ := e.procHeader_cases x.toNat
  · rw [hv] at hno; cases hno
  · rwa [hx] at hstep

section
variable {e : Engine Config.default} {k : Command Config.default} {rest : List HostMove}
  {taken : List (BitVec Config.default.rspw)}

theorem Command.stepCount_of_noOwnSteps {f : Option (Filter Config.default)}
    (hno : ∀ x, k = .proc x → f = none) : k.stepCount f = k.words.length + 1 := by
  unfold Command.stepCount
  split
  case h_1 x g => cases hno x rfl
  case h_2 => rfl

/-- The steps of a command up to its response: its words, and for a `PROC` with a filter its own
steps, while the host waits for the response (R175). -/
theorem Engine.Inv.run_to_response (h : e.Inv) (hp : e.phase = .idle) (hk : k.wf = true) :
    ∃ n e', k.stepCount e.filter = n + 1 ∧
      State.run n ⟨e, k.script ++ rest, taken⟩ = .next ⟨e', .take :: rest, taken⟩ ∧
      e'.Answers (k.run (Config.freeNan 0) e.filter).2 (k.run (Config.freeNan 0) e.filter).1 := by
  have hscript : k.script ++ rest = k.words.map HostMove.word ++ .take :: rest := by
    simp [Command.script]
  rw [hscript]
  by_cases hproc : ∃ x, k = .proc x ∧ e.valid = true
  case pos =>
    obtain ⟨x, rfl, hv⟩ := hproc
    have hrun := State.run_accepts (rest := .take :: rest) (taken := taken)
      (Command.accepted_proc hk hp hv)
    have hinv := State.Inv.run (s := ⟨e, _, taken⟩) h hrun
    obtain ⟨e', hown, hans⟩ :=
      Engine.Inv.ownSteps_answers hinv (Num.int_faithful 16 16 40) rfl 0
    have hrun' := State.run_ownSteps hinv rfl (fun i => Engine.Inv.ownSteps_own hinv rfl 0) hown
    refine ⟨_, e', ?_, State.run_add hrun hrun', ?_⟩
    · rw [Engine.filter_eq_stored hv, Command.stepCount, Engine.stored_taps]
      rfl
    · rw [Engine.filter_eq_stored hv]
      exact hans
  case neg =>
    have hno : ∀ x, k = .proc x → e.valid = false := fun x hx =>
      Bool.eq_false_iff.2 fun hv => hproc ⟨x, hx, hv⟩
    obtain ⟨e', hacc, hans⟩ := Command.accepted hk hp hno (Config.freeNan 0)
    exact ⟨_, e', Command.stepCount_of_noOwnSteps fun x hx => Engine.filter_eq_none.2 (hno x hx),
      State.run_accepts hacc, hans⟩

/-- A whole command takes the effect of its command-level function, and its response is taken (R62,
R83). -/
theorem Engine.Inv.run_command (h : e.Inv) (hp : e.phase = .idle) (hk : k.wf = true)
    (draw : BitVec 53) :
    ∃ e', State.run (k.stepCount e.filter) ⟨e, k.script ++ rest, taken⟩ =
        .next ⟨e', rest, taken ++ [(k.run draw e.filter).2.word]⟩ ∧
      e'.Inv ∧ e'.phase = .idle ∧ e'.filter = (k.run draw e.filter).1 := by
  obtain ⟨n, e', hn, hrun, hans⟩ := h.run_to_response (rest := rest) (taken := taken) hp hk
  have htake := State.run_add hrun (State.run_one (step_take hans.phase hans.rspValid))
  rw [hans.rspWord, Command.run_draw _ draw] at htake
  have hfilter : e'.endResponse.filter = (k.run draw e.filter).1 := by
    rw [Command.run_draw draw (Config.freeNan 0), ← hans.filter]
    rfl
  exact ⟨e'.endResponse, by rw [hn]; exact htake, State.Inv.run (s := ⟨e, _, taken⟩) h htake, rfl,
    hfilter⟩

/-- A list of commands, by induction: each starts where the one before it has been answered. -/
theorem Engine.Inv.run_commands {ks : List (Command Config.default)} (hks : ∀ k ∈ ks, k.wf = true)
    (h : e.Inv) (hp : e.phase = .idle) (d : Nat) :
    ∃ e', State.run (Command.stepsOfAll ks e.filter) ⟨e, ks.flatMap Command.script, taken⟩ =
        .next ⟨e', [], taken ++ (Command.runAll d ks e.filter).2.map Response.word⟩ ∧
      e'.phase = .idle ∧ e'.filter = (Command.runAll d ks e.filter).1 := by
  induction ks generalizing e taken d with
  | nil =>
    have htaken : taken ++ (Command.runAll d [] e.filter).2.map Response.word = taken :=
      List.append_nil taken
    exact ⟨e, by rw [htaken]; rfl, hp, rfl⟩
  | cons k ks ih =>
    obtain ⟨hk, hks⟩ := List.forall_mem_cons.1 hks
    obtain ⟨e₁, hrun₁, h₁, hp₁, hf₁⟩ := h.run_command (k := k) hp hk (Config.freeNan d)
    obtain ⟨e₂, hrun₂, hp₂, hf₂⟩ := ih hks h₁ hp₁ (d + 1)
    rw [hf₁] at hrun₂ hf₂
    refine ⟨e₂, ?_, hp₂, hf₂⟩
    have hrun := State.run_add hrun₁ hrun₂
    rw [List.append_assoc] at hrun
    rw [Command.stepsOfAll, Command.run_draw _ (Config.freeNan d)]
    exact hrun

end

/-- Settles O25: reset meets the invariant, in phase IDLE and without a filter. -/
theorem runFromResetIsTheCommandLevelRun : Obligations.RunFromResetIsTheCommandLevelRun := by
  intro ks hks
  obtain ⟨e', hrun, hp, hf⟩ :=
    (Engine.reset_inv Config.default).run_commands (taken := []) hks rfl 0
  exact ⟨_, hrun, hp, rfl, rfl, hf⟩

end Sys2Proof.Machine
end

section
/-! Proofs about the encoding chapter (30_encoding.md): header words, payload words and response
words, the length of a command, the assembler, the frame of the header step, the reserved headers
and the taking of a response. -/

namespace Sys2Proof

/-! ## Header words -/

/-- Settles O1, by the fields of an encoded header. -/
theorem headerDecodeInvertsEncode : Obligations.HeaderDecodeInvertsEncode :=
  fun _ _ => decodeHeader_encodeHeader

/-- The op field has four values, one for each row of the opcode table (R72). -/
theorem opField_eq_three {op : BitVec 2} (h1 : op ≠ 1) (h2 : op ≠ 2) (h0 : op ≠ 0) : op = 3 := by
  revert op
  decide

theorem decodeHeader_op (dw : Nat) (w : BitVec (2 + dw)) :
    (decodeHeader dw w).op = opField dw w := by
  dsimp only [decodeHeader]
  split_ifs with h1 h2 h0
  · exact h1.symm
  · exact h2.symm
  · exact h0.symm
  · exact (opField_eq_three h1 h2 h0).symm

theorem decodeHeader_data (dw : Nat) (w : BitVec (2 + dw)) :
    (decodeHeader dw w).data = (dataField dw w).toNat := by
  dsimp only [decodeHeader]
  split_ifs <;> rfl

theorem decodeHeader_wf (dw : Nat) (w : BitVec (2 + dw)) : (decodeHeader dw w).wf dw = true :=
  decide_eq_true (decodeHeader_data_lt dw w)

theorem encodeHeader_decodeHeader (dw : Nat) (w : BitVec (2 + dw)) :
    encodeHeader dw (decodeHeader dw w) = w := by
  rw [encodeHeader, decodeHeader_op, decodeHeader_data, BitVec.ofNat_toNat, BitVec.setWidth_eq,
    opField_append_dataField]

/-- Settles O2: the decoder keeps both fields, and these are the whole word. -/
theorem headerEncodeInvertsDecode : Obligations.HeaderEncodeInvertsDecode :=
  fun dw w => ⟨decodeHeader_wf dw w, encodeHeader_decodeHeader dw w⟩

/-- Settles O3: each of the words is decoded by evaluation. -/
theorem specWordsDecode : Obligations.SpecWordsDecode := by
  unfold Obligations.SpecWordsDecode
  decide

end Sys2Proof

namespace Sys2Proof.Machine

variable {c : Config} {e e' : Engine c}

/-! ## Payload words, samples and response words -/

theorem coefOperand_append (op : BitVec 2) (d : BitVec c.dw) :
    coefOperand c (op ++ d) = d.setWidth c.cw := by
  rw [coefOperand, payloadCoef, dataField_append]

/-- The load step looks at nothing of its word but the coefficient (R74, R92). -/
theorem Engine.loadStep_congr {w w' : BitVec c.cmdw} (h : coefOperand c w = coefOperand c w')
    (e : Engine c) : e.loadStep w = e.loadStep w' := by
  rw [Engine.loadStep, Engine.loadStep, h]

/-- Settles O4: the load step reads the coefficient of its word alone, which is the low bits of the
data, and the discard step reads nothing. -/
theorem payloadReadsOnlyItsCoefficient : Obligations.PayloadReadsOnlyItsCoefficient := by
  intro c op op' d d' e
  refine ⟨fun k hk => ?_, fun hlow => Engine.loadStep_congr ?_ e, rfl⟩
  · simp [coefOperand_append, hk]
  · rw [coefOperand_append, coefOperand_append]
    refine BitVec.eq_of_getLsbD_eq fun k hk => ?_
    rw [BitVec.getLsbD_setWidth, BitVec.getLsbD_setWidth, hlow k hk]

theorem sampleOperand_toNat (c : Config) (x : Nat) :
    (sampleOperand c x).toNat = x % 2 ^ c.sw :=
  BitVec.toNat_ofNat x c.sw

/-- Settles O5: the header step uses the data as the sample operand only, a remainder mod `2^SW`. -/
theorem sampleIsTheLowBits : Obligations.SampleIsTheLowBits := by
  intro c x x' e hx
  have hsample : sampleOperand c x = sampleOperand c x' :=
    BitVec.eq_of_toNat_eq (by rw [sampleOperand_toNat, sampleOperand_toNat, hx])
  refine ⟨?_, sampleOperand_toNat c x⟩
  rw [Engine.procHeader, Engine.procHeader, hsample]

theorem responseWord_toNat (status : BitVec 3) (data : BitVec c.aw) :
    (responseWord status data).toNat = 2 ^ c.aw * status.toNat + data.toNat := by
  rw [responseWord, BitVec.toNat_append, ← Nat.shiftLeft_add_eq_or_of_lt data.isLt,
    Nat.shiftLeft_eq, Nat.mul_comm]

/-- Settles O7: status and data are the quotient and the remainder of the word by `2^AW`. -/
theorem responseWordFields : Obligations.ResponseWordFields := by
  intro c status data
  have hdata := data.isLt
  rw [responseWord_toNat]
  constructor
  · rw [Nat.mul_add_div (Nat.two_pow_pos c.aw), Nat.div_eq_of_lt hdata, Nat.add_zero]
  · rw [Nat.mul_add_mod, Nat.mod_eq_of_lt hdata]

/-! ## The length of a command -/

section
variable {ws : List (BitVec c.cmdw)}

theorem Engine.Accepts.give (h : Engine.Accepts ws e e') (d : Nat) :
    Engine.give d ws e = .ok e' := by
  induction h generalizing d with
  | nil e => rfl
  | cons _ edge _ ih => rw [Engine.give_cons (edge _), ih]

/-- Short of its last word an accepted sequence leaves the engine ready for the next (R44). -/
theorem Engine.Accepts.give_take (h : Engine.Accepts ws e e') (d : Nat) {k : Nat}
    (hk : k < ws.length) :
    ∃ e₁, Engine.give d (ws.take k) e = .ok e₁ ∧ e₁.phase.cmdReady = true := by
  induction h generalizing d k with
  | nil e => exact absurd hk (Nat.not_lt_zero k)
  | cons ready edge _ ih =>
    cases k with
    | zero => exact ⟨_, rfl, ready⟩
    | succ k =>
      rw [List.take_succ_cons, Engine.give_cons (edge _)]
      exact ih (d + 1) (Nat.lt_of_succ_lt_succ hk)

end

/-- With a filter or without, the header step of `PROC` ends in a phase that takes no word (R101). -/
theorem Engine.procHeader_cmdReady (x : Nat) (e : Engine c) :
    (e.procHeader x).phase.cmdReady = false := by
  obtain ⟨-, heq⟩ | ⟨-, heq⟩ := e.procHeader_cases x <;> rw [heq] <;> rfl

/-- A header after whose step no word is taken is a whole command. -/
theorem Engine.accepts_header_only (hp : e.phase = .idle) {header : BitVec c.cmdw}
    {payload : List (BitVec c.cmdw)} (hpayload : payload.length = 0)
    (hdone : (e.headerStep (decodeHeader c.dw header)).phase.cmdReady = false) :
    ∃ e', Engine.Accepts (header :: payload) e e' ∧ e'.phase.cmdReady = false := by
  obtain rfl := List.length_eq_zero_iff.1 hpayload
  exact ⟨_, .cons (by rw [hp]; rfl) (fun _ => Engine.edge_idle hp header) (.nil _), hdone⟩

/-- A waiting engine accepts a header and as many payload words as it calls for, and then no more
(R75). -/
theorem Engine.accepts_words (hp : e.phase = .idle) {header : BitVec c.cmdw}
    {payload : List (BitVec c.cmdw)}
    (hlen : payload.length = (decodeHeader c.dw header).payloadWords) :
    ∃ e', Engine.Accepts (header :: payload) e e' ∧ e'.phase.cmdReady = false := by
  cases hi : decodeHeader c.dw header with
  | create n =>
    rw [hi] at hlen
    obtain rfl : payload.length = n := hlen
    have hheader := encodeHeader_decodeHeader c.dw header
    have hfit := decodeHeader_data_lt c.dw header
    rw [hi] at hheader hfit
    obtain ⟨e', hacc, hans⟩ := Engine.accepts_create hp hfit 0
    rw [hheader] at hacc
    exact ⟨e', hacc, by rw [hans.phase]; rfl⟩
  | proc x =>
    exact Engine.accepts_header_only hp (by rw [hlen, hi]; rfl)
      (by rw [hi]; exact e.procHeader_cmdReady x)
  | rsvd0 d => exact Engine.accepts_header_only hp (by rw [hlen, hi]; rfl) (by rw [hi]; rfl)
  | rsvd3 d => exact Engine.accepts_header_only hp (by rw [hlen, hi]; rfl) (by rw [hi]; rfl)

/-- Settles O6: the words of a command are accepted one by one, and giving a part of them stops at
an engine that is ready for the next. -/
theorem commandLengthIsInTheHeader : Obligations.CommandLengthIsInTheHeader := by
  refine ⟨fun n => ⟨rfl, rfl, rfl, rfl⟩, fun c d e header payload hp hlen => ?_⟩
  obtain ⟨e', hacc, hdone⟩ := Engine.accepts_words hp (Nat.add_left_cancel hlen)
  refine ⟨fun k hk => hacc.give_take d ?_, e', hacc.give d, hdone⟩
  rwa [List.length_cons, Nat.add_comm]

/-! ## The assembler -/

theorem Command.decodeHeader_head {k : Command c} (hk : k.wf = true) :
    k.words.head?.map (decodeHeader c.dw) = some k.header :=
  congrArg some (decodeHeader_encodeHeader hk)

/-- A sample fits the data field of its header (R10, R73). -/
theorem Command.wf_proc (x : BitVec c.sw) : (Command.proc x).wf = true :=
  decide_eq_true (x.isLt.trans_le (Nat.pow_le_pow_right (by decide) (le_max_left _ _)))

theorem sampleOperand_of_sample (x : BitVec c.sw) : sampleOperand c x.toNat = x := by
  simp [sampleOperand]

section
variable {nmax sw cw aw : Nat} {ws : List (BitVec (Config.int nmax sw cw aw).cmdw)}

/-- A `CREATE` line emits the words of the command with the operands' encodings (R84). -/
theorem Line.words_create {entries : List Entry}
    (h : Line.words nmax sw cw aw (.create entries) = some ws) :
    ∃ cs : List (BitVec cw),
      (entries.flatMap Entry.operands).mapM (Operand.encode cw) = some cs ∧
      (Command.create (c := Config.int nmax sw cw aw) cs).wf = true ∧
      (Command.create (c := Config.int nmax sw cw aw) cs).words = ws := by
  obtain ⟨cs, hcs, hws⟩ := Option.bind_eq_some_iff.1 h
  obtain ⟨hwf, hws⟩ := Option.ite_none_right_eq_some.1 hws
  exact ⟨cs, hcs, hwf, Option.some.inj hws⟩

/-- A `PROC` line emits the word of the command with the operand's encoding (R84). -/
theorem Line.words_proc {o : Operand} (h : Line.words nmax sw cw aw (.proc o) = some ws) :
    ∃ x : BitVec sw, o.encode sw = some x ∧
      (Command.proc (c := Config.int nmax sw cw aw) x).wf = true ∧
      (Command.proc (c := Config.int nmax sw cw aw) x).words = ws := by
  obtain ⟨x, hx, hws⟩ := Option.bind_eq_some_iff.1 h
  exact ⟨x, hx, Command.wf_proc (c := Config.int nmax sw cw aw) x, Option.some.inj hws⟩

end

/-- Settles O8: a line emits the words of its command, whose header decodes to it and whose payload
words hold the coefficients. -/
theorem assembledWordsReadBack : Obligations.AssembledWordsReadBack := by
  intro nmax sw cw aw o entries ws
  constructor
  · intro h
    obtain ⟨cs, hcs, hwf, rfl⟩ := Line.words_create h
    exact ⟨cs, hcs, congrArg (· + 1) (List.length_map _), Command.decodeHeader_head hwf,
      coefOperand_map_encodePayload (c := Config.int nmax sw cw aw) cs⟩
  · intro h
    obtain ⟨x, hx, hwf, rfl⟩ := Line.words_proc h
    exact ⟨x, hx, rfl, Command.decodeHeader_head hwf,
      sampleOperand_of_sample (c := Config.int nmax sw cw aw) x⟩

/-! ## The header step -/

/-- What a header step can do (R82): raise an error, start loading or dropping a payload, or latch a
sample. -/
theorem Engine.headerStep_cases (i : Instr) (e : Engine c) :
    (∃ s, e.headerStep i = e.raiseError s) ∨
    (∃ n, i = .create n ∧ 1 ≤ n ∧ n ≤ c.nmax ∧ e.headerStep i =
      { e with valid := false, N := BitVec.ofNat c.nw n, j := 0, phase := .load }) ∨
    (∃ n, i = .create n ∧ c.nmax < n ∧
      e.headerStep i = { e with rem := BitVec.ofNat c.dw n, phase := .discard }) ∨
    (∃ x, i = .proc x ∧ e.valid = true ∧
      e.headerStep i = { e with xin := sampleOperand c x, phase := .write }) := by
  cases i with
  | create n =>
    obtain ⟨-, heq⟩ | ⟨-, hcap, heq⟩ | ⟨h0, hmax, heq⟩ := e.createHeader_cases n
    · exact .inl ⟨_, heq⟩
    · exact .inr (.inr (.inl ⟨n, rfl, hcap, heq⟩))
    · exact .inr (.inl ⟨n, rfl, Nat.pos_of_ne_zero h0, hmax, heq⟩)
  | proc x =>
    obtain ⟨-, heq⟩ | ⟨hv, heq⟩ := e.procHeader_cases x
    · exact .inl ⟨_, heq⟩
    · exact .inr (.inr (.inr ⟨x, rfl, hv, heq⟩))
  | rsvd0 d => exact .inl ⟨_, rfl⟩
  | rsvd3 d => exact .inl ⟨_, rfl⟩

/-- `exec` always answers a state: the engine's header step, the host left alone (R82). -/
theorem exec_eq_next_iff {i : Instr} {s t : State} :
    exec i s = .next t ↔ { s with engine := s.engine.headerStep i } = t := by
  rw [exec_eq_withEngine, State.withEngine_ok, Host.Outcome.next.injEq]

/-- Settles O18: each of the four things a header step can do writes the elements named for it and no
other. -/
theorem headerStepFrame : Obligations.HeaderStepFrame := by
  intro i s t h
  obtain rfl := exec_eq_next_iff.1 h
  refine ⟨rfl, rfl, ?_⟩
  dsimp only
  obtain ⟨st, heq⟩ | ⟨n, hi, h1, hmax, heq⟩ | ⟨n, hi, hcap, heq⟩ | ⟨x, hi, hv, heq⟩ :=
    s.engine.headerStep_cases i <;> rw [heq]
  · exact ⟨fun _ => ⟨rfl, rfl⟩, rfl, rfl, .inr ⟨rfl, rfl, rfl⟩, .inr rfl, .inr rfl, .inl rfl⟩
  · exact ⟨fun _ => ⟨rfl, rfl⟩, rfl, rfl, .inl ⟨n, hi, h1, hmax⟩, .inr rfl, .inr rfl,
      .inr ⟨rfl, rfl, rfl⟩⟩
  · exact ⟨fun _ => ⟨rfl, rfl⟩, rfl, rfl, .inr ⟨rfl, rfl, rfl⟩, .inl ⟨n, hi, hcap⟩, .inr rfl,
      .inr ⟨rfl, rfl, rfl⟩⟩
  · exact ⟨fun _ => ⟨rfl, rfl⟩, rfl, rfl, .inr ⟨rfl, rfl, rfl⟩, .inr rfl, .inl ⟨x, hi, hv⟩,
      .inr ⟨rfl, rfl, rfl⟩⟩

/-! ## Reserved headers -/

/-- The two reserved operations have one meaning (R77). -/
theorem exec_of_reserved_op {i : Instr} (h : i.op = 0 ∨ i.op = 3) (s : State) :
    exec i s = .next { s with engine := s.engine.raiseError .illegalCommand } := by
  cases i with
  | create n => exact absurd h (by decide : ¬ (1#2 = 0 ∨ 1#2 = 3))
  | proc x => exact absurd h (by decide : ¬ (2#2 = 0 ∨ 2#2 = 3))
  | rsvd0 d => rfl
  | rsvd3 d => rfl

/-- Settles O17: the reserved header is one step, the taking of its response the other. -/
theorem reservedHeadersAreIllegalCommands : Obligations.ReservedHeadersAreIllegalCommands := by
  constructor
  · exact fun s d => ⟨exec_of_reserved_op (.inl rfl) s, exec_of_reserved_op (.inr rfl) s⟩
  · intro s w rest hp hs hop
    have hheader := step_header hp hs
    rw [exec_of_reserved_op (by rwa [decodeHeader_op])] at hheader
    exact State.run_add (State.run_one hheader) (State.run_one (step_take rfl rfl))

/-! ## The taking of a response -/

/-- A host whose next move is neither a reset nor a taking asserts neither port. -/
theorem State.offer_of_ne {s : State}
    (h : ∀ rest, s.script ≠ .take :: rest ∧ s.script ≠ .reset :: rest) :
    s.offer.rst = false ∧ s.offer.rspReady = false := by
  obtain ⟨e, script, taken⟩ := s
  cases script with
  | nil => exact ⟨rfl, rfl⟩
  | cons m rest =>
    obtain ⟨htake, hreset⟩ := h rest
    cases m with
    | reset => exact absurd rfl hreset
    | word w => exact ⟨rfl, rfl⟩
    | take => exact absurd rfl htake
    | pause => exact ⟨rfl, rfl⟩

/-- While the response waits the machine does nothing but the host's part of the step (R87). -/
theorem step_hold {s : State} (hp : s.engine.phase = .resp) (hrst : s.offer.rst = false)
    (hready : s.offer.rspReady = false) : step s = .next s.hostPart := by
  rw [stepIsAnEdgeOfTheEngine, Engine.edge_resp hp hrst, hready]
  rfl

/-- Settles O30: the step that takes the response is `step_take`; without it the engine holds, and
`cmd_ready = 0` keeps an offered word in the script. -/
theorem takeResponseEffect : Obligations.TakeResponseEffect := by
  constructor
  · rintro ⟨e, script, taken⟩ rest hp hr rfl
    exact step_take hp hr
  · intro s hp hne
    obtain ⟨hrst, hready⟩ := State.offer_of_ne hne
    refine ⟨_, step_hold hp hrst hready, rfl, ?_, fun w rest hs => ?_⟩
    · simp [State.takenAfter, Engine.transferred, hready]
    · rw [State.hostPart_script, State.restOfScript_word hs, hp]
      rfl

end Sys2Proof.Machine
end

section
/-! Proofs about the `CREATE` chapter (40_create.md): its header step (R91, R94, R95), its discard
and load steps (R92 to R94), the whole command (R90, R98), and the life of the filter it makes (R96). -/

namespace Sys2Proof.Machine

variable {c : Config} {e e' : Engine c}

/-! ## The header step -/

/-- Settles O13: the count 0 is the first case of the header step, which raises the error. -/
theorem createEmptyIsInvalidArgument : Obligations.CreateEmptyIsInvalidArgument :=
  fun _ => rfl

/-- A number that fits its register is read back from it (R10). -/
theorem toNat_ofNat_of_lt {w n : Nat} (h : n < 2 ^ w) : (BitVec.ofNat w n).toNat = n := by
  rw [BitVec.toNat_ofNat, Nat.mod_eq_of_lt h]

/-- A count in range gives up the filter there was and starts loading (R91). -/
theorem Engine.createHeader_of_le {n : Nat} (h1 : 1 ≤ n) (hmax : n ≤ c.nmax) (e : Engine c) :
    e.createHeader n =
      { e with valid := false, N := BitVec.ofNat c.nw n, j := 0, phase := .load } := by
  rw [Engine.createHeader, if_neg (Nat.one_le_iff_ne_zero.1 h1), if_neg hmax.not_gt]

/-- A count above the capacity starts dropping the payload (R94). -/
theorem Engine.createHeader_of_gt {n : Nat} (hcap : c.nmax < n) (e : Engine c) :
    e.createHeader n = { e with rem := BitVec.ofNat c.dw n, phase := .discard } := by
  rw [Engine.createHeader, if_neg (Nat.ne_zero_of_lt hcap), if_pos hcap]

/-- Settles O14: the header step starts loading, and the count fits the register `N`. -/
theorem createInRangeStartsLoading : Obligations.CreateInRangeStartsLoading := by
  intro s n h1 hmax
  refine ⟨_, exec_eq_next_iff.2 rfl, ?_⟩
  rw [Engine.headerStep, Engine.createHeader_of_le h1 hmax]
  exact ⟨rfl, toNat_ofNat_of_lt (Config.default.lt_two_pow_nw hmax)⟩

/-! ## The discard step -/

/-- The discard step does one of two things. -/
theorem Engine.discardStep_cases (w : BitVec c.cmdw) (e : Engine c) :
    (1 < e.rem.toNat ∧ e.discardStep w = { e with rem := e.rem - 1 }) ∨
    (¬ 1 < e.rem.toNat ∧ e.discardStep w = e.raiseError .capacity) := by
  unfold Engine.discardStep
  split
  · exact .inl ⟨‹_›, rfl⟩
  · exact .inr ⟨‹_›, rfl⟩

/-- Settles O15: the count fits the register `rem`, and the machine's step on a payload word is the
engine's discard step. -/
theorem overCapacityCreateDropsItsPayload : Obligations.OverCapacityCreateDropsItsPayload := by
  constructor
  · intro s n hcap hn
    refine ⟨_, exec_eq_next_iff.2 rfl, ?_⟩
    rw [Engine.headerStep, Engine.createHeader_of_gt hcap]
    exact ⟨rfl, toNat_ofNat_of_lt hn⟩
  · rintro ⟨e, script, taken⟩ w rest hp rfl
    refine ⟨_, step_word (by rw [hp]; rfl) (Engine.edge_discard hp w), ?_⟩
    obtain ⟨hrem, heq⟩ | ⟨hrem, heq⟩ := e.discardStep_cases w <;> rw [heq]
    · rw [if_pos hrem]
      exact ⟨rfl, toNat_pred_of_pos hrem⟩
    · rw [if_neg hrem]
      rfl

/-! ## The load step -/

/-- Below the tap count the load step writes cell `j` of each memory, and no other; a completion
forgets none of these cells (R92, R93). -/
theorem Engine.loadStep_read {w : BitVec c.cmdw} (hok : e.loadStep w = .ok e') {k : Nat}
    (hk : k < e.N.toNat) :
    e'.coef.read k = (e.coef.write e.j.toNat (coefOperand c w)).read k ∧
      e'.hist.read k = (e.hist.write e.j.toNat c.num.zeroS).read k := by
  obtain ⟨-, rfl⟩ := Engine.loadStep_ok.1 hok
  split
  · exact ⟨rfl, rfl⟩
  · simp only [Engine.createDone_coef, Engine.createDone_hist, Memory.read_keepBelow, if_pos hk,
      and_self]

/-- What the load step leaves alone, the last one of a `CREATE` included (R92, R93). -/
theorem Engine.loadStep_frame {w : BitVec c.cmdw} (hok : e.loadStep w = .ok e') :
    e'.N = e.N ∧ e'.rem = e.rem ∧ e'.xin = e.xin ∧ e'.acc = e.acc := by
  obtain ⟨-, rfl⟩ := Engine.loadStep_ok.1 hok
  split <;> exact ⟨rfl, rfl, rfl, rfl⟩

/-- In LOAD an accepted word is a load step, and the cell to write exists (R60, R92). -/
theorem Engine.edge_load_isOk (hp : e.phase = .load) (hj : e.j.toNat < e.N.toNat)
    (hmax : e.N.toNat ≤ c.nmax) (draw : BitVec 53) (w : BitVec c.cmdw) :
    ∃ e', e.loadStep w = .ok e' ∧ e.edge draw ⟨false, true, w, false⟩ = .ok e' := by
  have hok := Engine.loadStep_ok (w := w).2 ⟨hj.trans_le hmax, rfl⟩
  exact ⟨_, hok, (Engine.edge_load hp w).trans hok⟩

/-- Settles O26: an accepted word is a load step, whose two writes are at `j`; the last word
completes the filter. On the default machine `step_word` is that edge. -/
theorem loadStepEffect : Obligations.LoadStepEffect := by
  constructor
  · intro c draw e op data hp hj hmax
    obtain ⟨e', hok, hedge⟩ := Engine.edge_load_isOk hp hj hmax draw (op ++ data)
    obtain ⟨hN, hrem, hxin, hacc⟩ := Engine.loadStep_frame hok
    obtain ⟨hcoef, hhist⟩ := Engine.loadStep_read hok hj
    rw [Memory.read_write_same] at hcoef hhist
    rw [coefOperand_append] at hcoef
    refine ⟨e', hedge, hcoef, hhist, fun k hne hk => ?_, hN, hrem, hxin, hacc, ?_⟩
    · have hread := Engine.loadStep_read hok hk
      rwa [Memory.read_write_other _ _ hne, Memory.read_write_other _ _ hne] at hread
    · obtain ⟨-, rfl⟩ := Engine.loadStep_ok.1 hok
      split
      case isTrue =>
        refine ⟨toNat_succ_of_lt hj, hp, rfl, rfl, rfl, rfl, rfl, fun k hk => ?_⟩
        have hne : k ≠ e.j.toNat := (hj.trans_le hk).ne'
        exact ⟨Memory.read_write_other _ _ hne, Memory.read_write_other _ _ hne⟩
      case isFalse => exact ⟨rfl, rfl, rfl, rfl, rfl, rfl, rfl⟩
  · rintro ⟨e, script, taken⟩ w rest hp rfl hj hmax
    obtain ⟨e', -, hedge⟩ := Engine.edge_load_isOk hp hj hmax (Config.freeNan 0) w
    exact ⟨e', hedge, step_word (by rw [hp]; rfl) hedge⟩

/-! ## The whole command -/

/-- Settles O23: the words of a `CREATE` are accepted one by one, and its answer is that of its
command-level function. -/
theorem createStepsRealiseTheCommand : Obligations.CreateStepsRealiseTheCommand := by
  intro c d draw e cs hp hwf
  obtain ⟨e', hacc, hans⟩ := Command.accepted hwf hp (fun _ h => nomatch h) draw
  exact ⟨e', hacc.give d, hans.phase, hans.rspValid, hans.rspWord, hans.filter⟩

/-- The payload words accepted in LOAD: the cells loaded before them stay, and each word's
coefficient stands in its own cell, beside a zero of the history (R90, R92). -/
theorem Engine.Accepts.read_loaded {ws : List (BitVec c.cmdw)} (h : Engine.Accepts ws e e')
    {a : Nat} (hN : e.N.toNat = a + ws.length) (hload : ws ≠ [] → e.phase = .load ∧ e.j.toNat = a) :
    e'.N = e.N ∧
      (∀ k, k < a → e'.coef.read k = e.coef.read k ∧ e'.hist.read k = e.hist.read k) ∧
      ∀ (i : Nat) (hi : i < ws.length), e'.coef.read (a + i) = some (coefOperand c ws[i]) ∧
        e'.hist.read (a + i) = some c.num.zeroS := by
  induction h generalizing a with
  | nil e => exact ⟨rfl, fun _ _ => ⟨rfl, rfl⟩, fun i hi => absurd hi (Nat.not_lt_zero i)⟩
  | @cons w ws e e₁ e' _ edge _ ih =>
    rw [List.length_cons] at hN
    obtain ⟨hp, rfl⟩ := hload (List.cons_ne_nil w ws)
    have hok : e.loadStep w = .ok e₁ := (Engine.edge_load hp w).symm.trans (edge 0)
    obtain ⟨hN₁, -⟩ := Engine.loadStep_frame hok
    have hload₁ : ws ≠ [] → e₁.phase = .load ∧ e₁.j.toNat = e.j.toNat + 1 := fun hne => by
      have hpos := List.length_pos_iff.2 hne
      obtain ⟨-, rfl⟩ := Engine.loadStep_ok.1 hok
      rw [if_pos (by omega)]
      exact ⟨hp, toNat_succ_of_lt (b := e.N) (by omega)⟩
    obtain ⟨hN', hbefore, hafter⟩ := ih (by rw [hN₁, hN]; omega) hload₁
    refine ⟨hN'.trans hN₁, fun k hk => ?_, fun i hi => ?_⟩
    · obtain ⟨hcoef, hhist⟩ := hbefore k (Nat.lt_succ_of_lt hk)
      have hread := Engine.loadStep_read hok (hk.trans (by omega))
      rwa [← hcoef, ← hhist, Memory.read_write_other _ _ hk.ne,
        Memory.read_write_other _ _ hk.ne] at hread
    · cases i with
      | zero =>
        obtain ⟨hcoef, hhist⟩ := hbefore e.j.toNat (Nat.lt_succ_self _)
        have hread := Engine.loadStep_read hok (k := e.j.toNat) (by omega)
        rwa [← hcoef, ← hhist, Memory.read_write_same, Memory.read_write_same] at hread
      | succ i =>
        rw [← Nat.add_assoc, Nat.add_right_comm]
        exact hafter i (Nat.lt_of_succ_lt_succ hi)

/-- The payload words of a count in range, from the header step on (R90). -/
theorem Engine.Accepts.read_created {ws : List (BitVec c.cmdw)}
    (h : Engine.Accepts ws (e.createHeader ws.length) e') (h1 : 1 ≤ ws.length)
    (hmax : ws.length ≤ c.nmax) :
    e'.N.toNat = ws.length ∧
      ∀ (i : Nat) (hi : i < ws.length), e'.coef.read i = some (coefOperand c ws[i]) ∧
        e'.hist.read i = some c.num.zeroS := by
  rw [Engine.createHeader_of_le h1 hmax] at h
  have hN : (BitVec.ofNat c.nw ws.length).toNat = ws.length :=
    toNat_ofNat_of_lt (c.lt_two_pow_nw hmax)
  obtain ⟨hN', -, hcells⟩ := h.read_loaded (hN.trans (Nat.zero_add _).symm) fun _ => ⟨rfl, rfl⟩
  exact ⟨by rw [hN', hN], fun i hi => by simpa using hcells i hi⟩

/-- A `CREATE` is answered the same in whatever phase its header step is taken: the step writes the
phase and does not read it (R91, R94, R95). -/
theorem Engine.createHeader_accepts {ws : List (BitVec c.cmdw)} (hlen : ws.length < 2 ^ c.dw)
    (draw : BitVec 53) (e : Engine c) :
    ∃ e', Engine.Accepts ws (e.createHeader ws.length) e' ∧
      e'.Answers ((Command.create (ws.map (coefOperand c))).run draw e.filter).2
        ((Command.create (ws.map (coefOperand c))).run draw e.filter).1 := by
  have hheader : ({ e with phase := .idle } : Engine c).createHeader ws.length =
      e.createHeader ws.length := by
    unfold Engine.createHeader
    split_ifs <;> rfl
  have hi : (Instr.create ws.length).wf c.dw = true := decide_eq_true hlen
  obtain ⟨e', hacc, hans⟩ := Engine.accepts_create (e := { e with phase := .idle }) rfl hlen draw
  refine ⟨e', ?_, hans⟩
  cases hacc with
  | cons _ edge rest =>
    have hedge := edge draw
    rw [Engine.edge_idle rfl, decodeHeader_encodeHeader hi] at hedge
    obtain rfl := Except.ok.inj hedge
    rwa [← hheader]

/-- An engine that holds a filter is valid, with that filter's cursor (R35). -/
theorem Engine.valid_and_wc_of_filter_eq {f : Filter c} (h : e.filter = some f) :
    e.valid = true ∧ e.wc.toNat = f.wc := by
  have hv : e.valid = true := by
    rw [← Bool.not_eq_false, ← Engine.filter_eq_none, h]
    exact Option.some_ne_none f
  rw [Engine.filter_of_valid hv] at h
  exact ⟨hv, congrArg Filter.wc (Option.some.inj h)⟩

/-- Settles O19: the payload words are accepted one by one; the answer is that of the command-level
function, and in range each word is read back from its cell. -/
theorem createCompletes : Obligations.CreateCompletes := by
  rintro ⟨e, script, taken⟩ ws rest hlen rfl
  obtain ⟨e', hacc, hans⟩ := e.createHeader_accepts hlen 0
  refine ⟨_, ⟨e', rest, taken⟩, exec_eq_next_iff.2 rfl, State.run_accepts hacc, rfl, rfl,
    hans.phase, hans.rspValid, ?_⟩
  have hword := hans.rspWord
  have hfilter := hans.filter
  have hnmax : Config.default.nmax = 256 := rfl
  simp only [Command.run, List.length_map, hnmax] at hword hfilter
  split_ifs at hword hfilter ⊢ with h0 hcap
  · exact ⟨hword, hfilter⟩
  · exact ⟨hword, hfilter⟩
  · obtain ⟨hv, hwc⟩ := Engine.valid_and_wc_of_filter_eq hfilter
    obtain ⟨hN, hcells⟩ := hacc.read_created (Nat.pos_of_ne_zero h0) (Nat.le_of_not_lt hcap)
    exact ⟨hword, hv, hN, BitVec.eq_of_toNat_eq hwc, hcells⟩

/-! ## The lifetime of a filter -/

/-- Settles O41: no write that an edge can make to the storage of a living filter is to `N` or to a
coefficient. -/
theorem tapsAndCoefficientsAreImmutable : Obligations.TapsAndCoefficientsAreImmutable := by
  intro c draw i e e' h hedge hv hv'
  obtain ⟨hcoef, hN, -, -⟩ := h.edge_storage hedge hv hv'
  exact ⟨hN, fun k => by rw [hcoef]⟩

end Sys2Proof.Machine
end

section
/-! Proofs about the `PROC` chapter (41_process.md): its header step (R101), the steps of its own
(R102 to R104), and the whole command (R100, R111). -/

namespace Sys2Proof.Machine

variable {c : Config} {e e' : Engine c}

/-! ## The header step -/

/-- With a filter the sample is latched (R101). -/
theorem Engine.procHeader_of_valid (hv : e.valid = true) (x : Nat) :
    e.procHeader x = { e with xin := sampleOperand c x, phase := .write } := by
  rw [Engine.procHeader, if_pos hv]

/-- Without a filter the header is the whole command, an error (R101). -/
theorem Engine.procHeader_of_invalid (hv : e.valid = false) (x : Nat) :
    e.procHeader x = e.raiseError .noFilter := by
  rw [Engine.procHeader, if_neg (ne_true_of_eq_false hv)]

/-- Settles O16: the two cases of the header step; a sample of 16 bits is latched as it is. -/
theorem procHeaderLatchesOrAnswersNoFilter : Obligations.ProcHeaderLatchesOrAnswersNoFilter := by
  intro s x hx
  constructor <;> intro hv
  · refine ⟨_, exec_eq_next_iff.2 rfl, ?_⟩
    rw [Engine.headerStep, Engine.procHeader_of_valid hv]
    exact ⟨rfl, toNat_ofNat_of_lt hx⟩
  · rw [exec_eq_next_iff, Engine.headerStep, Engine.procHeader_of_invalid hv]
    rfl

/-! ## The three steps of its own -/

/-- Under a quiet host the machine's step in such a phase is the engine's edge (R178). -/
theorem State.Inv.step_own {s : State} (hs : s.Inv) (hown : s.engine.phase.own = true)
    (hq : s.quiet = true) :
    ∃ e', s.engine.edge (Config.freeNan 0) (Inputs.silent Config.default) = .ok e' ∧
      step s = .next { s with engine := e' } := by
  obtain ⟨e', hedge⟩ := Engine.Inv.edge_isOk hs (Config.freeNan 0) (Inputs.silent Config.default)
  exact ⟨e', hedge, Machine.step_own hs hq hown hedge⟩

/-- In WRITE the engine's edge is the write step, and the cell at the cursor exists (R60, R102). -/
theorem Engine.Inv.edge_write (h : e.Inv) (hp : e.phase = .write) (draw : BitVec 53) :
    e.edge draw (Inputs.silent c) = .ok (e.written draw) := by
  have hv := h.processing (by rw [hp]; rfl)
  obtain ⟨-, hmax⟩ := h.count (.inl hv)
  rw [Engine.edge_write hp, Engine.writeStep_ok]
  exact ⟨(h.cursor hv).trans_le hmax, rfl⟩

/-- Settles O27: the edge in WRITE is the write step, and on the machine it is the whole step. -/
theorem writeStepEffect : Obligations.WriteStepEffect := by
  constructor
  · intro c draw e h hp
    exact ⟨_, h.edge_write hp draw, rfl, Memory.read_write _ _ _⟩
  · intro s h hp hq
    obtain ⟨e', hedge, hstep⟩ := State.Inv.step_own h (by rw [hp]; rfl) hq
    obtain rfl := Except.ok.inj ((Engine.Inv.edge_write h hp _).symm.trans hedge)
    exact ⟨_, hstep, rfl, Memory.read_write _ _ _⟩

/-- Settles O28: the MAC step reads two cells that the invariant has hold values, and below `N` the
count `j` does not wrap. -/
theorem macStepEffect : Obligations.MacStepEffect := by
  constructor
  · intro c draw e h hp
    obtain ⟨e', hok⟩ := h.macStep_isOk hp draw
    obtain ⟨k, x, -, hk, -, hx, he'⟩ := Engine.macStep_ok.1 hok
    have hj : (e.j + 1).toNat = e.j.toNat + 1 := toNat_succ_of_lt (h.accumulating hp)
    refine ⟨e', k, x, hk, hx, (Engine.edge_mac hp).trans hok, ?_⟩
    split_ifs at he' ⊢ <;> subst he'
    · exact ⟨by rw [← hp]; rfl, hj⟩
    · exact ⟨rfl, hj⟩
  · intro s h hp hq
    exact h.step_own (by rw [hp]; rfl) hq

/-- The register `wc` holds the advanced cursor (R10, R104). -/
theorem Engine.Inv.advStep_wc_toNat (h : e.Inv) (hv : e.valid = true) :
    e.advStep.wc.toNat = if e.wc.toNat + 1 < e.N.toNat then e.wc.toNat + 1 else 0 := by
  obtain ⟨hpos, hmax⟩ := h.count (.inl hv)
  have hlt := nextCursor_lt e.wc.toNat hpos
  rw [Engine.advStep_wc, toNat_ofNat_of_lt (c.lt_two_pow_iw (hlt.trans_le hmax)),
    nextCursor_eq (h.cursor hv)]

/-- Settles O29: the edge in ADV is the advance step; with one tap the cursor has nowhere to go. -/
theorem advStepEffect : Obligations.AdvStepEffect := by
  constructor
  · intro c draw e h hp
    have hwc := h.advStep_wc_toNat (h.processing (by rw [hp]; rfl))
    refine ⟨_, Engine.edge_adv hp, rfl, hwc, fun hN => BitVec.eq_of_toNat_eq ?_⟩
    rw [hwc, hN, if_neg (by omega)]
    exact BitVec.toNat_zero.symm
  · intro s h hp hq
    exact h.step_own (by rw [hp]; rfl) hq

/-! ## The whole command -/

/-- A response offered is in the two registers (R31, R79). -/
theorem Engine.Answers.registers {r : Response c} {f : Option (Filter c)} (h : e.Answers r f) :
    e.rspStatus = r.status.code ∧ e.rspData = r.data := by
  have hword : responseWord e.rspStatus e.rspData = responseWord r.status.code r.data := h.rspWord
  obtain ⟨hstatus, hdata⟩ := responseWordFields c e.rspStatus e.rspData
  obtain ⟨hstatus', hdata'⟩ := responseWordFields c r.status.code r.data
  rw [hword] at hstatus hdata
  exact ⟨BitVec.eq_of_toNat_eq (hstatus.symm.trans hstatus'),
    BitVec.eq_of_toNat_eq (hdata.symm.trans hdata')⟩

/-- The engine after the header of a `PROC x` with a filter (R101). -/
def Engine.latched (x : BitVec c.sw) (e : Engine c) : Engine c :=
  { e with xin := x, phase := .write }

theorem Engine.procHeader_sample (hv : e.valid = true) (x : BitVec c.sw) :
    e.procHeader x.toNat = e.latched x := by
  rw [Engine.procHeader_of_valid hv, sampleOperand_of_sample, Engine.latched]

theorem Engine.Inv.latched (h : e.Inv) (hp : e.phase = .idle) (hv : e.valid = true)
    (x : BitVec c.sw) : (e.latched x).Inv := by
  rw [← Engine.procHeader_sample hv]
  exact h.procHeader hp x.toNat

/-- The own steps of a `PROC` leave the coefficients, the tap count and the filter's presence alone
(R100). -/
theorem Engine.Inv.ownSteps_frame (h : e.Inv) (hp : e.phase = .write) {d : Nat}
    (hok : e.ownSteps d (e.N.toNat + 2) = .ok e') :
    e'.coef = e.coef ∧ e'.N = e.N ∧ e'.valid = e.valid := by
  obtain rfl := Except.ok.inj ((h.ownSteps_proc hp d).symm.trans hok)
  exact ⟨rfl, rfl, rfl⟩

/-- Settles O20: after the header step the machine makes the engine's own steps, which answer the
output of the filter in its storage. -/
theorem procCompletes : Obligations.ProcCompletes := by
  intro s x h hp hq
  constructor <;> intro hv
  · have hlatched : (s.engine.latched x).Inv := Engine.Inv.latched h hp hv x
    obtain ⟨e', hok, hans⟩ := hlatched.ownSteps_answers (Num.int_faithful 16 16 40) rfl 0
    obtain ⟨hcoef, hN, hvalid⟩ := hlatched.ownSteps_frame rfl hok
    obtain ⟨hstatus, hdata⟩ := hans.registers
    have hrun := State.run_ownSteps (s := { s with engine := s.engine.latched x }) hlatched hq
      (fun i => hlatched.ownSteps_own rfl 0) hok
    refine ⟨{ s with engine := s.engine.latched x }, { s with engine := e' }, s.engine.stored, ?_,
      Engine.filter_eq_stored hv, ?_, rfl, rfl, hans.phase, hans.rspValid, hstatus, hdata,
      hans.filter, hcoef, hN, hvalid.trans hv⟩
    · rw [exec_eq_next_iff, Engine.headerStep, Engine.procHeader_sample hv]
    · rw [Engine.stored_taps]
      exact hrun
  · rw [exec_eq_next_iff, Engine.headerStep, Engine.procHeader_of_invalid hv]
    rfl

/-- Settles O24: the header word latches the sample, and the own steps answer; without a filter the
header word is the whole command. -/
theorem procStepsRealiseTheCommand : Obligations.ProcStepsRealiseTheCommand := by
  intro c d e x hp
  constructor
  · intro hf h hv
    have hacc := Command.accepted_proc (Command.wf_proc x) hp hv
    obtain ⟨e', hok, hans⟩ := (h.latched hp hv x).ownSteps_answers hf rfl (d + 1)
    have htaps : (e.latched x).N.toNat = e.stored.taps := e.stored_taps.symm
    rw [htaps] at hok hans
    exact ⟨_, e', e.stored, Engine.filter_eq_stored hv, hacc.give d, hok, hans.phase,
      hans.rspValid, hans.rspWord, hans.filter⟩
  · intro hv
    obtain ⟨e', hacc, hans⟩ := Command.accepted (Command.wf_proc x) hp (fun _ _ => hv) 0
    rw [Engine.filter_eq_none.2 hv] at hans
    exact ⟨e', hacc.give d, hans.phase, hans.rspValid, hans.rspWord, hans.filter⟩

end Sys2Proof.Machine
end

section
/-! Proofs about the `PROC` chapter (41_process.md), continued: the outputs of a lifetime as a
convolution (R110, R112), and the laws that follow in INT (R113). -/

namespace Sys2Proof.Machine

variable {c : Config}

/-! ## The outputs of a lifetime -/

/-- Each output is that of the filter the samples before it have left. -/
theorem Filter.outputs_getElem? (f : Filter c) (xs : List (BitVec c.sw)) {k : Nat}
    (hk : k < xs.length) : (f.outputs xs)[k]? = some ((f.procAll (xs.take k)).output xs[k]) := by
  induction xs generalizing f k with
  | nil => exact absurd hk (Nat.not_lt_zero k)
  | cons x xs ih =>
    cases k with
    | zero => rfl
    | succ k => exact ih (f.proc x) (Nat.lt_of_succ_lt_succ hk)

theorem Filter.outputs_length (f : Filter c) (xs : List (BitVec c.sw)) :
    (f.outputs xs).length = xs.length := by
  induction xs generalizing f with
  | nil => rfl
  | cons x xs ih => exact congrArg Nat.succ (ih (f.proc x))

/-- Sample number `k + 1 - j`, read from the first `k + 1` samples. -/
theorem sampleAt_succ_sub {xs : List (BitVec c.sw)} {k : Nat} (hk : k < xs.length) (j : Nat) :
    sampleAt c xs ((k + 1 : Nat) - j) =
      if j + 1 ≤ k + 1 then (xs.take (k + 1)).getD (k + 1 - (j + 1)) 0 else c.num.zeroS := by
  unfold sampleAt
  by_cases hjk : j ≤ k
  · have hi : (((k + 1 : Nat) : Int) - j - 1).toNat = k - j := by omega
    have htake : (xs.take (k + 1))[k - j]? = xs[k - j]? := List.getElem?_take_of_lt (by omega)
    have hget : xs[k - j]? = some xs[k - j] := List.getElem?_eq_getElem (by omega)
    rw [if_pos (by omega), if_pos (by omega), hi, Nat.add_sub_add_right,
      List.getD_eq_getElem?_getD, List.getD_eq_getElem?_getD, htake, hget, Option.getD_some,
      Option.getD_some]
  · rw [if_neg (by omega), if_neg (by omega)]

/-- The filter while it answers sample number `k + 1`: that sample has just been stored, and the
sample of age `j` is number `k + 1 - j` (R34, R108). -/
theorem Filter.store_hist_readIndex (cs : List (BitVec c.cw)) {xs : List (BitVec c.sw)} {k j : Nat}
    (hk : k < xs.length) (hj : j < cs.length) :
    (((Filter.create cs).procAll (xs.take k)).store xs[k]).hist[
      readIndex ((Filter.create cs).procAll (xs.take k)).wc j cs.length]? =
      some (sampleAt c xs ((k + 1 : Nat) - j)) := by
  have hhist := Filter.procAll_create_hist cs (xs.take (k + 1)) (Nat.le_add_left 1 j) hj
  rw [List.length_take_of_le hk, ← sampleAt_succ_sub hk, ← List.take_concat_get' _ _ hk,
    Filter.procAll_concat] at hhist
  rw [Filter.procAll_create_wc, List.length_take_of_le hk.le,
    ← readIndex_nextCursor_succ _ _ (Nat.zero_lt_of_lt hj), nextCursor_mod]
  exact hhist

/-- The running totals of an output are the partial sums of the convolution (R112, R124). -/
theorem Filter.store_total (cs : List (BitVec c.cw)) {xs : List (BitVec c.sw)} {k n : Nat}
    (hk : k < xs.length) (hn : n ≤ cs.length) :
    (((Filter.create cs).procAll (xs.take k)).store xs[k]).total n =
      convolution c cs xs (k + 1) n := by
  induction n with
  | zero => rfl
  | succ n ih =>
    have hcoef : (((Filter.create cs).procAll (xs.take k)).store xs[k]).coef = cs :=
      Filter.procAll_coef _ _
    have hsample := congrArg (Option.getD · 0) (Filter.store_hist_readIndex cs hk hn)
    rw [Filter.total, ih (by omega), convolution, Filter.product, Filter.taps, hcoef,
      List.getD_eq_getElem?_getD (l := (Filter.store _ _).hist)]
    exact congrArg (fun s => c.num.add _ (c.num.mul _ (c.num.decS s))) hsample

/-- The outputs of a lifetime, all in closed form (R112). -/
theorem Filter.outputs_create (cs : List (BitVec c.cw)) (xs : List (BitVec c.sw)) :
    (Filter.create cs).outputs xs =
      (List.range xs.length).map fun k => convolution c cs xs (k + 1) cs.length := by
  refine List.ext_getElem? fun k => ?_
  by_cases hk : k < xs.length
  · have htaps : ((Filter.create cs).procAll (xs.take k)).taps = cs.length :=
      congrArg List.length (Filter.procAll_coef _ _)
    rw [Filter.outputs_getElem? _ _ hk, Filter.output, htaps, Filter.store_total cs hk le_rfl,
      List.getElem?_map, List.getElem?_range hk, Option.map_some]
  · rw [List.getElem?_eq_none (by rw [Filter.outputs_length]; omega),
      List.getElem?_eq_none (by rw [List.length_map, List.length_range]; omega)]

/-- Settles O46: the closed form, read at one place. -/
theorem outputsAreTheConvolution : Obligations.OutputsAreTheConvolution := by
  intro c cs xs k _ h1 hk
  rw [Filter.outputs_create, List.getElem?_map, List.getElem?_range (by omega), Option.map_some,
    Nat.sub_add_cancel h1]

/-! ## Streams of zeros -/

section
variable {w : Nat}

/-- `sampleAt` where the zero sample is encoded as 0, as it is in INT and in F64 (R112, R118,
R125). -/
def sampleNumber (xs : List (BitVec w)) (i : Int) : BitVec w :=
  if 1 ≤ i then xs.getD (i - 1).toNat 0 else 0

theorem sampleAt_int {nmax sw cw aw : Nat} (xs : List (BitVec sw)) (i : Int) :
    sampleAt (Config.int nmax sw cw aw) xs i = sampleNumber xs i := rfl

theorem sampleAt_f64 {nmax : Nat} (xs : List (BitVec 64)) (i : Int) :
    sampleAt (Config.f64 nmax) xs i = sampleNumber xs i := rfl

theorem sampleNumber_of_lt_one (xs : List (BitVec w)) {i : Int} (hi : i < 1) :
    sampleNumber xs i = 0 :=
  if_neg (by omega)

/-- Leading zeros put every sample off (R113 P3). -/
theorem sampleNumber_replicate_append (d : Nat) (xs : List (BitVec w)) (i : Int) :
    sampleNumber (List.replicate d 0 ++ xs) i = sampleNumber xs (i - d) := by
  by_cases h1 : 1 ≤ i
  · by_cases hd : 1 ≤ i - d
    · rw [sampleNumber, sampleNumber, if_pos h1, if_pos hd,
        List.getD_append_right _ _ _ _ (by rw [List.length_replicate]; omega),
        List.length_replicate, show (i - 1).toNat - d = (i - d - 1).toNat by omega]
    · rw [sampleNumber_of_lt_one xs (by omega), sampleNumber, if_pos h1,
        List.getD_append _ _ _ _ (by rw [List.length_replicate]; omega),
        List.getD_replicate _ (by omega)]
  · rw [sampleNumber_of_lt_one _ (by omega), sampleNumber_of_lt_one _ (by omega)]

/-- A sample with nothing but zeros behind it is met in output `k + 1` by coefficient `k` alone
(R113 P1). -/
theorem sampleNumber_impulse (x : BitVec w) (m k j : Nat) :
    sampleNumber (x :: List.replicate m 0) ((k + 1 : Nat) - j) = if j = k then x else 0 := by
  obtain hlt | rfl | hgt := lt_trichotomy j k
  · obtain ⟨i, hi⟩ : ∃ i, (((k + 1 : Nat) : Int) - j - 1).toNat = i + 1 := ⟨k - j - 1, by omega⟩
    rw [if_neg hlt.ne, sampleNumber, if_pos (by omega), hi, List.getD_cons_succ]
    by_cases him : i < m
    · exact List.getD_replicate _ him
    · exact List.getD_eq_default _ _ (by rw [List.length_replicate]; omega)
  · have hi : (((j + 1 : Nat) : Int) - j - 1).toNat = 0 := by omega
    rw [if_pos rfl, sampleNumber, if_pos (by omega), hi, List.getD_cons_zero]
  · rw [if_neg hgt.ne', sampleNumber_of_lt_one _ (by omega)]

/-- A combination of two streams is one of their samples at every number, the zeros outside the
streams included (R113 P2). -/
theorem toInt_sampleNumber_linear {p q : Int} {as bs xs : List (BitVec w)}
    (ha : as.length = xs.length) (hb : bs.length = xs.length)
    (h : ∀ i, i < xs.length →
      (xs.getD i 0).toInt = p * (as.getD i 0).toInt + q * (bs.getD i 0).toInt) (i : Int) :
    (sampleNumber xs i).toInt = p * (sampleNumber as i).toInt + q * (sampleNumber bs i).toInt := by
  unfold sampleNumber
  split_ifs
  · by_cases hi : (i - 1).toNat < xs.length
    · exact h _ hi
    · rw [List.getD_eq_default _ _ (by omega), List.getD_eq_default _ _ (by omega),
        List.getD_eq_default _ _ (by omega)]
      simp
  · simp

end

/-! ## In INT -/

section
variable {nmax sw cw aw : Nat}

/-- A running total in INT is an exact sum of exact products (R119, R120). -/
theorem Filter.intTotal_eq_sum (f : Filter (Config.int nmax sw cw aw)) (k : Nat) :
    f.intTotal k = ∑ j ∈ Finset.range k,
      (f.coef.getD j 0).toInt * (f.hist.getD (readIndex f.wc j f.taps) 0).toInt := by
  induction k with
  | zero => rfl
  | succ k ih =>
    rw [Finset.sum_range_succ, ← ih, ← signed_eq_toInt, ← signed_eq_toInt]
    rfl

/-- Settles O21: the total over all taps of the filter with the new sample stored. -/
theorem outputIsTheConvolutionSum : Obligations.OutputIsTheConvolutionSum := by
  intro nmax sw cw aw f x
  exact Filter.intTotal_eq_sum (Filter.store (c := Config.int nmax sw cw aw) x f) f.taps

/-- The convolution in INT is an exact sum of exact products (R112, R119, R120). -/
theorem convolution_int_eq_sum (cs : List (BitVec cw)) (xs : List (BitVec sw)) (k n : Nat) :
    convolution (Config.int nmax sw cw aw) cs xs k n =
      ∑ j ∈ Finset.range n, (cs.getD j 0).toInt * (sampleNumber xs (k - j)).toInt := by
  induction n with
  | zero => rfl
  | succ n ih =>
    rw [Finset.sum_range_succ, ← ih, ← signed_eq_toInt, ← signed_eq_toInt]
    rfl

theorem Filter.intOutputs_create (cs : List (BitVec cw)) (xs : List (BitVec sw)) :
    (Filter.create (c := Config.int nmax sw cw aw) cs).intOutputs xs =
      (List.range xs.length).map fun k => ∑ j ∈ Finset.range cs.length,
        (cs.getD j 0).toInt * (sampleNumber xs ((k + 1 : Nat) - j)).toInt := by
  refine (Filter.outputs_create (c := Config.int nmax sw cw aw) cs xs).trans ?_
  exact List.map_congr_left fun k _ => convolution_int_eq_sum cs xs (k + 1) cs.length

theorem Filter.intOutputs_create_getElem? (cs : List (BitVec cw)) {xs : List (BitVec sw)} {k : Nat}
    (hk : k < xs.length) :
    ((Filter.create (c := Config.int nmax sw cw aw) cs).intOutputs xs)[k]? =
      some (∑ j ∈ Finset.range cs.length,
        (cs.getD j 0).toInt * (sampleNumber xs ((k + 1 : Nat) - j)).toInt) := by
  rw [Filter.intOutputs_create, List.getElem?_map, List.getElem?_range hk, Option.map_some]

/-- P1 in INT: in output `k + 1` only coefficient `k` meets a sample other than zero, and that is 1
(R113). -/
theorem Filter.intOutputs_impulse (hsw : 2 ≤ sw) (cs : List (BitVec cw)) (hcs : 1 ≤ cs.length) :
    (Filter.create (c := Config.int nmax sw cw aw) cs).intOutputs
      (BitVec.ofNat sw 1 :: List.replicate (cs.length - 1) 0) = cs.map fun b => b.toInt := by
  have hone : (BitVec.ofNat sw 1).toInt = 1 := BitVec.toInt_one (by omega)
  rw [Filter.intOutputs_create, List.length_cons, List.length_replicate, Nat.sub_add_cancel hcs]
  refine List.ext_getElem (by simp) fun k hk _ => ?_
  rw [List.length_map, List.length_range] at hk
  rw [List.getElem_map, List.getElem_range, List.getElem_map, Finset.sum_eq_single_of_mem k]
  · rw [sampleNumber_impulse, if_pos rfl, hone, mul_one, List.getD_eq_getElem _ _ hk]
  · exact Finset.mem_range.2 hk
  · intro j _ hj
    rw [sampleNumber_impulse, if_neg hj]
    exact mul_eq_zero_of_right _ BitVec.toInt_zero

end

/-- Settles O48: each output is a sum that is linear in the samples. -/
theorem processingIsLinear : Obligations.ProcessingIsLinear := by
  intro nmax sw cw aw cs p q as bs xs _ ha hb h i hi
  refine ⟨_, _, _, Filter.intOutputs_create_getElem? cs (by omega),
    Filter.intOutputs_create_getElem? cs (by omega), Filter.intOutputs_create_getElem? cs hi, ?_⟩
  rw [Finset.mul_sum, Finset.mul_sum, ← Finset.sum_add_distrib]
  refine Finset.sum_congr rfl fun j _ => ?_
  rw [toInt_sampleNumber_linear ha hb h]
  ring

/-- Settles O49: the outputs up to number `d` meet zeros only, and those behind meet the samples of
the stream itself. -/
theorem processingIsTimeInvariant : Obligations.ProcessingIsTimeInvariant := by
  intro nmax sw cw aw cs d xs _
  rw [Filter.intOutputs_create, Filter.intOutputs_create, List.length_append,
    List.length_replicate, List.range_add, List.map_append, List.map_map]
  congr 1
  · refine List.eq_replicate_iff.2 ⟨by simp, List.forall_mem_map.2 fun k hk => ?_⟩
    have hkd := List.mem_range.1 hk
    refine Finset.sum_eq_zero fun j _ => ?_
    rw [sampleNumber_replicate_append, sampleNumber_of_lt_one _ (by omega)]
    exact mul_eq_zero_of_right _ BitVec.toInt_zero
  · refine List.map_congr_left fun k _ => Finset.sum_congr rfl fun j _ => ?_
    have hnumber : ((d + k + 1 : Nat) : Int) - j - d = (k + 1 : Nat) - j := by omega
    rw [sampleNumber_replicate_append, hnumber]

/-- Settles O50: the stream of zeros is that of O49 with nothing behind it. -/
theorem zeroInZeroOut : Obligations.ZeroInZeroOut := by
  intro nmax sw cw aw cs m hcs
  have h := processingIsTimeInvariant nmax sw cw aw cs m [] hcs
  rw [List.append_nil] at h
  exact h.trans (List.append_nil _)

end Sys2Proof.Machine
end

section
/-! Proofs about the `PROC` chapter (41_process.md), continued: the impulse response in INT and in
F64 (R113, R129). -/

namespace Sys2Proof.Machine

theorem F64.decode_one : F64.decode 0x3FF0000000000000#64 = F64.one := by decide

theorem F64.decode_zero : F64.decode 0 = F64.zero false := by decide

/-- The pattern of `-0` is its only encoding (R125). -/
theorem F64.decode_eq_zero_true_iff {b : BitVec 64} :
    F64.decode b = F64.zero true ↔ b = 0x8000000000000000#64 := by
  constructor
  · intro h
    have hb := F64.encode_decode_fin 0 (b := b) (by rw [h]; rfl)
    rw [← hb, h]
    decide
  · rintro rfl
    decide

/-- The first `n` terms of output `k + 1` of P1's stream in F64: coefficient `k` meets the sample
1.0, and every other a zero (R113, R129). -/
def impulseTotal (cs : List (BitVec 64)) (k : Nat) : Nat → F64
  | 0 => F64.zero false
  | n + 1 => F64.add (impulseTotal cs k n)
      (if n = k then F64.decode (cs.getD n 0)
        else F64.mul (F64.decode (cs.getD n 0)) (F64.zero false))

theorem convolution_f64_impulse {nmax : Nat} (cs : List (BitVec 64)) (m k n : Nat) :
    convolution (Config.f64 nmax) cs (0x3FF0000000000000#64 :: List.replicate m 0) (k + 1) n =
      impulseTotal cs k n := by
  induction n with
  | zero => rfl
  | succ n ih =>
    have hterm : F64.mul (F64.decode (cs.getD n 0)) (F64.decode (sampleNumber
          (0x3FF0000000000000#64 :: List.replicate m 0) ((k + 1 : Nat) - n))) =
        if n = k then F64.decode (cs.getD n 0)
          else F64.mul (F64.decode (cs.getD n 0)) (F64.zero false) := by
      rw [sampleNumber_impulse]
      split_ifs
      · rw [F64.decode_one, F64.mul_one]
      · rw [F64.decode_zero]
    rw [impulseTotal, ← ih, ← hterm]
    rfl

/-- A sum that starts from `+0` is not `-0` (R127). -/
theorem F64.zero_add_ne (x : F64) : F64.add (F64.zero false) x ≠ F64.zero true := by
  rw [F64.zero_add]
  split_ifs with hx
  · decide
  · exact hx

/-- Where all the other coefficients are finite their terms are zeros, which leave the total alone
(R127). -/
theorem impulseTotal_of_finite {cs : List (BitVec 64)} {k n : Nat}
    (h : ∀ i, i < n → i ≠ k → (F64.decode (cs.getD i 0)).isFinite = true) :
    impulseTotal cs k n = if k < n then F64.add (F64.zero false) (F64.decode (cs.getD k 0))
      else F64.zero false := by
  induction n with
  | zero => rfl
  | succ n ih =>
    rw [impulseTotal, ih fun i hi => h i (Nat.lt_succ_of_lt hi)]
    by_cases hnk : n = k
    · subst hnk
      rw [if_neg (lt_irrefl _), if_pos rfl, if_pos (Nat.lt_succ_self _)]
    · obtain ⟨a, ha⟩ := F64.mul_zero_of_finite (h n (Nat.lt_succ_self n) hnk) false
      have hlt : k < n + 1 ↔ k < n := by omega
      rw [if_neg hnk, ha, F64.add_zero]
      · simp only [hlt]
      · split_ifs
        · exact F64.zero_add_ne _
        · decide

/-- A coefficient that is not finite and meets a zero makes the total a not-a-number for good (R127,
R128). -/
theorem impulseTotal_eq_nan {cs : List (BitVec 64)} {i k n : Nat} (hi : i < n) (hik : i ≠ k)
    (h : (F64.decode (cs.getD i 0)).isFinite = false) : impulseTotal cs k n = .nan := by
  induction n with
  | zero => exact absurd hi (Nat.not_lt_zero i)
  | succ n ih =>
    rw [impulseTotal]
    obtain hin | rfl := Nat.lt_succ_iff_lt_or_eq.1 hi
    · rw [ih hin, F64.nan_add]
    · rw [if_neg hik, F64.mul_zero_of_not_finite h, F64.add_nan]

/-- The output of P1's stream at a place where the other coefficients are finite (R113, R129). -/
theorem impulseTotal_length {cs : List (BitVec 64)} {k : Nat} (hk : k < cs.length)
    (h : ∀ i, i < cs.length → i ≠ k → (F64.decode (cs.getD i 0)).isFinite = true) :
    impulseTotal cs k cs.length =
      if cs[k] = 0x8000000000000000#64 then F64.zero false else F64.decode cs[k] := by
  rw [impulseTotal_of_finite h, if_pos hk, List.getD_eq_getElem _ _ hk, F64.zero_add]
  simp only [F64.decode_eq_zero_true_iff]

theorem Filter.f64Outputs_impulse {nmax : Nat} {cs : List (BitVec 64)} {k : Nat}
    (hk : k < cs.length) :
    ((Filter.create (c := Config.f64 nmax) cs).f64Outputs
      (0x3FF0000000000000#64 :: List.replicate (cs.length - 1) 0))[k]? =
      some (impulseTotal cs k cs.length) := by
  have hlen : k < (0x3FF0000000000000#64 :: List.replicate (cs.length - 1) 0).length := by
    rw [List.length_cons, List.length_replicate]
    omega
  have hout := outputsAreTheConvolution (Config.f64 nmax) cs
    (0x3FF0000000000000#64 :: List.replicate (cs.length - 1) 0) (k + 1)
    (Nat.zero_lt_of_lt hk) (Nat.le_add_left 1 k) hlen
  rw [convolution_f64_impulse] at hout
  exact hout

/-- Settles O47: in INT every product but one is 0; in F64 every product but one is a zero or, if
its coefficient is not finite, a not-a-number. -/
theorem impulseResponseIsTheCoefficients : Obligations.ImpulseResponseIsTheCoefficients := by
  constructor
  · exact fun nmax sw cw aw cs hsw => Filter.intOutputs_impulse hsw cs
  · intro nmax cs k hk
    refine ⟨_, Filter.f64Outputs_impulse hk, fun hfin draw => ?_, ?_, fun hfin hinf => ?_⟩
    · have hall : ∀ i, i < cs.length → (F64.decode (cs.getD i 0)).isFinite = true := fun i hi => by
        rw [List.getD_eq_getElem _ _ hi]
        exact hfin _ (List.getElem_mem hi)
      rw [impulseTotal_length hk fun i hi _ => hall i hi]
      split_ifs
      · rfl
      · exact F64.encode_decode_fin draw (hfin _ (List.getElem_mem hk))
    · rintro ⟨i, hi, hik, hinf⟩
      exact impulseTotal_eq_nan hi hik hinf
    · rw [impulseTotal_length hk hfin, if_neg]
      intro heq
      rw [heq] at hinf
      exact absurd hinf (by decide)

end Sys2Proof.Machine
end

section
/-! Proofs about the `PROC` chapter (41_process.md), continued: erring commands leave no trace
(R107, R146). -/

namespace Sys2Proof.Machine

variable {c : Config}

/-- A command that ends no lifetime is a `PROC`, or errs and leaves the filter as it was (R107,
R146). -/
theorem Command.keepsFilter_cases {k : Command c} (hk : k.keepsFilter = true) :
    (∃ x, k = .proc x) ∨
    ((∀ ks, Command.samples (k :: ks) = Command.samples ks) ∧
      ∀ draw f, (k.run draw f).1 = f ∧ (k.run draw f).2.status ≠ .ok) := by
  cases k with
  | create cs =>
    refine .inr ⟨fun _ => rfl, fun draw f => ?_⟩
    have hcount : cs.length = 0 ∨ c.nmax < cs.length := by simpa [Command.keepsFilter] using hk
    dsimp only [Command.run]
    split_ifs with h0 hcap
    · exact ⟨rfl, nofun⟩
    · exact ⟨rfl, nofun⟩
    · exact absurd hcount (not_or_intro h0 hcap)
  | proc x => exact .inl ⟨x, rfl⟩
  | reserved0 d => exact .inr ⟨fun _ => rfl, fun _ _ => ⟨rfl, nofun⟩⟩
  | reserved3 d => exact .inr ⟨fun _ => rfl, fun _ _ => ⟨rfl, nofun⟩⟩

/-- The data of the OK responses, in order: the outputs a host sees. -/
def okData (rs : List (Response c)) : List (BitVec c.aw) :=
  (rs.filter fun r => decide (r.status = .ok)).map fun r => r.data

theorem okData_cons_of_ok {r : Response c} (h : r.status = .ok) (rs : List (Response c)) :
    okData (r :: rs) = r.data :: okData rs := by
  simp [okData, h]

theorem okData_cons_of_ne_ok {r : Response c} (h : r.status ≠ .ok) (rs : List (Response c)) :
    okData (r :: rs) = okData rs := by
  simp [okData, h]

/-- Settles O51, by induction on the commands: a `PROC` answers its output, and an erring command
neither adds an OK response nor changes the filter. -/
theorem outputsDependOnFilterAndSamplesOnly : Obligations.OutputsDependOnFilterAndSamplesOnly := by
  intro d ks f hks
  change okData _ = _ ∧ _
  induction ks generalizing d f with
  | nil => exact ⟨rfl, rfl⟩
  | cons k ks ih =>
    obtain ⟨hk, hrest⟩ := List.forall_mem_cons.1 hks
    rw [Command.runAll]
    obtain ⟨x, rfl⟩ | ⟨hsamples, herr⟩ := Command.keepsFilter_cases hk
    · obtain ⟨hdata, hfilter⟩ := ih (d + 1) (f.proc x) hrest
      refine ⟨?_, hfilter⟩
      exact (okData_cons_of_ok rfl _).trans (congrArg (List.cons _) hdata)
    · obtain ⟨hsame, hstatus⟩ := herr (Config.freeNan d) (some f)
      dsimp only
      rw [hsame, hsamples, okData_cons_of_ne_ok hstatus]
      exact ih (d + 1) f hrest

end Sys2Proof.Machine
end

section
/-! Proofs about the numerics chapter (42_numerics.md): the INT number system. A product fits
`SW + CW` bits (R119), so no running total overflows (R121) and a MAC step is an addition of bit
patterns (R122). -/

namespace Sys2Proof.Machine

/-! ## The magnitude of a pattern and of a product -/

section
variable {sw cw : Nat}

theorem abs_toInt_le {w : Nat} (b : BitVec w) : |b.toInt| ≤ 2 ^ (w - 1) :=
  abs_le.2 ⟨b.le_toInt, BitVec.toInt_lt.le⟩

/-- The range of two's complement is not symmetric: its greatest magnitude is that of one pattern
(R14). -/
theorem abs_toInt_eq_iff {w : Nat} {b : BitVec w} :
    |b.toInt| = 2 ^ (w - 1) ↔ b.toInt = -2 ^ (w - 1) := by
  have hpos : (0 : Int) < 2 ^ (w - 1) := by positivity
  constructor
  · intro h
    exact ((abs_eq hpos.le).1 h).resolve_left BitVec.toInt_lt.ne
  · intro h
    rw [h, abs_neg, abs_of_pos hpos]

theorem intProduct_eq (aw : Nat) (k : BitVec cw) (h : BitVec sw) :
    intProduct aw k h = k.toInt * h.toInt := by
  rw [← signed_eq_toInt, ← signed_eq_toInt]
  rfl

/-- The bound of R119 is the product of the two operands' bounds. -/
theorem two_pow_sub_two (hsw : 1 ≤ sw) (hcw : 1 ≤ cw) :
    (2 : Int) ^ (sw + cw - 2) = 2 ^ (cw - 1) * 2 ^ (sw - 1) := by
  rw [← pow_add]
  congr 1
  omega

theorem abs_product_le (k : BitVec cw) (h : BitVec sw) (hsw : 1 ≤ sw) (hcw : 1 ≤ cw) :
    |k.toInt * h.toInt| ≤ 2 ^ (sw + cw - 2) := by
  rw [abs_mul, two_pow_sub_two hsw hcw]
  exact mul_le_mul (abs_toInt_le k) (abs_toInt_le h) (abs_nonneg _) (by positivity)

/-- A product at the bound has both factors at theirs (R119). -/
theorem abs_product_eq_iff (k : BitVec cw) (h : BitVec sw) (hsw : 1 ≤ sw) (hcw : 1 ≤ cw) :
    |k.toInt * h.toInt| = 2 ^ (sw + cw - 2) ↔
      k.toInt = -2 ^ (cw - 1) ∧ h.toInt = -2 ^ (sw - 1) := by
  rw [abs_mul, two_pow_sub_two hsw hcw, ← abs_toInt_eq_iff, ← abs_toInt_eq_iff]
  constructor
  · intro heq
    have hpos : 0 < |k.toInt| * |h.toInt| := by
      rw [heq]
      positivity
    exact (mul_eq_mul_iff_eq_and_eq_of_pos (abs_toInt_le k) (abs_toInt_le h)
      (pos_of_mul_pos_left hpos (abs_nonneg _)) (by positivity)).1 heq
  · rintro ⟨hk, hh⟩
    rw [hk, hh]

end

/-- Settles O52: the product is that of the two integers, and a product of magnitudes reaches the
product of their bounds only where both do. -/
theorem productIsExactAndBounded : Obligations.ProductIsExactAndBounded := by
  refine ⟨fun sw cw aw k h hsw hcw => ?_, by decide, by decide, by decide⟩
  rw [intProduct_eq]
  exact ⟨rfl, abs_product_le k h hsw hcw, abs_product_eq_iff k h hsw hcw⟩

/-! ## Running totals -/

section
variable {nmax sw cw aw : Nat}

theorem Filter.abs_intTotal_le (f : Filter (Config.int nmax sw cw aw)) (k : Nat) (hsw : 1 ≤ sw)
    (hcw : 1 ≤ cw) : |f.intTotal k| ≤ k * 2 ^ (sw + cw - 2) := by
  rw [Filter.intTotal_eq_sum]
  calc |∑ j ∈ Finset.range k, _|
      ≤ ∑ j ∈ Finset.range k, |(f.coef.getD j 0).toInt *
          (f.hist.getD (readIndex f.wc j f.taps) 0).toInt| := Finset.abs_sum_le_sum_abs _ _
    _ ≤ ∑ _j ∈ Finset.range k, 2 ^ (sw + cw - 2) :=
        Finset.sum_le_sum fun _ _ => abs_product_le _ _ hsw hcw
    _ = k * 2 ^ (sw + cw - 2) := by rw [Finset.sum_const, Finset.card_range, nsmul_eq_mul]

/-- So many products of greatest magnitude fit the accumulator: `clog2 NMAX` is the room R9 asks
for. -/
theorem mul_two_pow_lt_of_intWf (hwf : Config.intWf nmax sw cw aw = true) {k : Nat}
    (hk : k ≤ nmax) : (k : Int) * 2 ^ (sw + cw - 2) < 2 ^ (aw - 1) := by
  obtain ⟨-, hsw, hcw, haw⟩ := Config.intWf_iff.1 hwf
  have hcount : k ≤ 2 ^ clog2 nmax := hk.trans (clog2_le_iff.1 le_rfl)
  calc (k : Int) * 2 ^ (sw + cw - 2) ≤ 2 ^ clog2 nmax * 2 ^ (sw + cw - 2) :=
        mul_le_mul_of_nonneg_right (by exact_mod_cast hcount) (by positivity)
    _ = 2 ^ (clog2 nmax + (sw + cw - 2)) := (pow_add _ _ _).symm
    _ < 2 ^ (aw - 1) := pow_lt_pow_right₀ one_lt_two (by omega)

end

/-- Settles O53: the magnitude of a total is at most that of as many greatest products as it has
terms. -/
theorem runningTotalsNeverOverflow : Obligations.RunningTotalsNeverOverflow := by
  intro nmax sw cw aw f k hwf htaps hk
  obtain ⟨-, hsw, hcw, haw⟩ := Config.intWf_iff.1 hwf
  have habs : |f.intTotal k| < 2 ^ (aw - 1) :=
    (f.abs_intTotal_le k hsw hcw).trans_lt (mul_two_pow_lt_of_intWf hwf (hk.trans htaps))
  obtain ⟨hlow, hhigh⟩ := abs_lt.1 habs
  exact ⟨hlow.le, hhigh, signed_twos (by omega) hlow.le hhigh⟩

/-! ## A MAC step in bits -/

/-- Operands extended to `SW + CW` bits have their exact product there (R119, R122). -/
theorem toInt_mul_signExtend {sw cw : Nat} (k : BitVec cw) (h : BitVec sw) (hsw : 1 ≤ sw)
    (hcw : 1 ≤ cw) :
    (k.signExtend (sw + cw) * h.signExtend (sw + cw)).toInt = k.toInt * h.toInt := by
  have hlt : |k.toInt * h.toInt| < 2 ^ (sw + cw - 1) :=
    (abs_product_le k h hsw hcw).trans_lt (pow_lt_pow_right₀ one_lt_two (by omega))
  obtain ⟨hlow, hhigh⟩ := abs_lt.1 hlt
  calc (k.signExtend (sw + cw) * h.signExtend (sw + cw)).toInt
      = signed (sw + cw) (twos (sw + cw) (k.toInt * h.toInt)) := by
        rw [signed_eq_toInt, twos_eq_ofInt, BitVec.ofInt_mul]
        rfl
    _ = k.toInt * h.toInt := signed_twos (by omega) hlow.le hhigh

theorem macSum_int {nmax sw cw aw : Nat} (draw : BitVec 53) (acc : BitVec aw) (k : BitVec cw)
    (h : BitVec sw) :
    macSum (Config.int nmax sw cw aw) draw acc k h = acc + BitVec.ofInt aw (k.toInt * h.toInt) := by
  change twos aw (signed aw acc + signed cw k * signed sw h) = _
  rw [twos_eq_ofInt, signed_eq_toInt, signed_eq_toInt, signed_eq_toInt, BitVec.ofInt_add,
    BitVec.ofInt_toInt]

/-- Settles O54: the extended product stands for the exact one, and encoding modulo `2^AW` keeps
sums. -/
theorem macIsBitwiseAddOfProduct : Obligations.MacIsBitwiseAddOfProduct := by
  intro nmax sw cw aw draw acc k h hwf
  obtain ⟨-, hsw, hcw, -⟩ := Config.intWf_iff.1 hwf
  rw [macSum_int, BitVec.signExtend, toInt_mul_signExtend k h hsw hcw]

end Sys2Proof.Machine
end

section
/-! Proofs about the numerics chapter (42_numerics.md), continued: the F64 number system. Rounding
is stated by the two neighbouring patterns around the exact magnitude (R125, R126). -/

namespace Sys2Proof.Machine

/-! ## Rounding to nearest -/

/-- A last place `2^u` and an integer of at most 53 bits, carried or not, make the pattern of their
product (R125). -/
theorem unitsOf_pattern {u q : Nat} (hq : q ≤ 2 ^ 53) (hu : u = 0 ∨ 2 ^ 52 ≤ q) :
    unitsOf (u * 2 ^ 52 + q) = q * 2 ^ u := by
  by_cases hsub : q < 2 ^ 52
  · obtain rfl : u = 0 := by omega
    rw [unitsOf_eq 0 q hsub, if_pos rfl, pow_zero, Nat.mul_one]
  by_cases hcarry : q = 2 ^ 53
  · rw [show u * 2 ^ 52 + q = (u + 2) * 2 ^ 52 + 0 by omega, unitsOf_eq _ _ (by decide),
      if_neg (by omega), hcarry, show u + 2 - 1 = u + 1 by omega, pow_succ]
    ring
  · rw [show u * 2 ^ 52 + q = (u + 1) * 2 ^ 52 + (q - 2 ^ 52) by omega, unitsOf_eq _ _ (by omega),
      if_neg (by omega), Nat.add_sub_cancel, Nat.add_sub_cancel' (by omega)]

/-- Patterns are ordered as the magnitudes they stand for (R125). -/
theorem unitsOf_strictMono : StrictMono unitsOf := by
  refine strictMono_nat_of_lt_succ fun p => ?_
  obtain ⟨u, q, hp, rfl, hq, hu⟩ := unitsOf_eq_mul p
  rw [hp, Nat.add_assoc, unitsOf_pattern (by omega) (by omega)]
  exact Nat.mul_lt_mul_of_pos_right (Nat.lt_succ_self q) (Nat.two_pow_pos u)

/-- `r` is the pattern nearest to the magnitude `m * 2^-(1074 + k)`, which lies between the patterns
`p` and `p + 1`; of two as near, the even one (R126). -/
structure NearestPattern (m k p r : Nat) : Prop where
  lower : unitsOf p * 2 ^ k ≤ m
  upper : m < unitsOf (p + 1) * 2 ^ k
  nearest : (r = p ∧ 2 * m ≤ (unitsOf p + unitsOf (p + 1)) * 2 ^ k) ∨
    (r = p + 1 ∧ (unitsOf p + unitsOf (p + 1)) * 2 ^ k ≤ 2 * m)
  even : 2 * m = (unitsOf p + unitsOf (p + 1)) * 2 ^ k → r % 2 = 0

/-- An integer is rounded down below the midpoint and up above it; at the midpoint the result is
even. -/
theorem roundHalfEven_spec (a k : Nat) :
    ((roundHalfEven a k = a / 2 ^ k ∧ 2 * a ≤ (2 * (a / 2 ^ k) + 1) * 2 ^ k) ∨
      (roundHalfEven a k = a / 2 ^ k + 1 ∧ (2 * (a / 2 ^ k) + 1) * 2 ^ k ≤ 2 * a)) ∧
    (2 * a = (2 * (a / 2 ^ k) + 1) * 2 ^ k → roundHalfEven a k % 2 = 0) := by
  have hmid : (2 * (a / 2 ^ k) + 1) * 2 ^ k = 2 * (2 ^ k * (a / 2 ^ k)) + 2 ^ k := by ring
  have hdiv := Nat.div_add_mod a (2 ^ k)
  rw [hmid]
  simp only [roundHalfEven]
  split_ifs <;> omega

/-- The magnitude pattern `roundToF64` makes, whether finite or not. -/
def roundedPattern (m k : Nat) : Nat :=
  (Nat.log2 m - (k + 52)) * 2 ^ 52 + roundHalfEven m (k + (Nat.log2 m - (k + 52)))

theorem roundToF64_eq_inf {m k : Nat} (neg : Bool) (h : finiteMagnitudes ≤ roundedPattern m k) :
    roundToF64 neg m k = .inf neg :=
  dif_neg (Nat.not_lt.2 h)

theorem roundToF64_eq_fin {m k : Nat} (neg : Bool) (h : roundedPattern m k < finiteMagnitudes) :
    roundToF64 neg m k = .fin neg ⟨roundedPattern m k, h⟩ :=
  dif_pos h

/-- Below the last place of the result stand at most 53 bits of `m`, and 53 unless that place is the
least there is (R126). -/
theorem lastPlace_bounds {m k u : Nat} (hu : u = Nat.log2 m - (k + 52)) :
    m / 2 ^ (k + u) < 2 ^ 53 ∧ (u = 0 ∨ 2 ^ 52 ≤ m / 2 ^ (k + u)) := by
  constructor
  · have hlog : m < 2 ^ (m.log2 + 1) := Nat.lt_log2_self
    rw [Nat.div_lt_iff_lt_mul (Nat.two_pow_pos _), ← pow_add]
    exact hlog.trans_le (Nat.pow_le_pow_right (by decide) (by omega))
  · refine or_iff_not_imp_left.2 fun hne => ?_
    have hm : m ≠ 0 := by
      rintro rfl
      exact hne (by rw [hu, Nat.log2_zero, Nat.zero_sub])
    rw [Nat.le_div_iff_mul_le (Nat.two_pow_pos _), ← pow_add]
    exact (Nat.pow_le_pow_right (by decide) (by omega)).trans (Nat.log2_self_le hm)

/-- `roundToF64` rounds to the nearest pattern: the one below the magnitude is its last place with
the bits above it. -/
theorem nearestPattern_roundedPattern (m k : Nat) :
    ∃ p, NearestPattern m k p (roundedPattern m k) := by
  obtain ⟨u, hu⟩ : ∃ u, u = Nat.log2 m - (k + 52) := ⟨_, rfl⟩
  obtain ⟨hq, hplace⟩ := lastPlace_bounds hu
  obtain ⟨hround, heven⟩ := roundHalfEven_spec m (k + u)
  have hlower : m / 2 ^ (k + u) * 2 ^ (k + u) ≤ m := Nat.div_mul_le_self _ _
  have hupper : m < (m / 2 ^ (k + u) + 1) * 2 ^ (k + u) :=
    (Nat.div_lt_iff_lt_mul (Nat.two_pow_pos _)).1 (Nat.lt_succ_self _)
  rw [roundedPattern, ← hu]
  generalize m / 2 ^ (k + u) = q at *
  have hp : unitsOf (u * 2 ^ 52 + q) = q * 2 ^ u := unitsOf_pattern hq.le hplace
  have hnext : unitsOf (u * 2 ^ 52 + q + 1) = (q + 1) * 2 ^ u := by
    rw [Nat.add_assoc, unitsOf_pattern (by omega) (by omega)]
  have hmid : (q * 2 ^ u + (q + 1) * 2 ^ u) * 2 ^ k = (2 * q + 1) * 2 ^ (k + u) := by ring
  refine ⟨u * 2 ^ 52 + q, ?_, ?_, ?_, ?_⟩
  · rw [hp, Nat.mul_assoc, ← pow_add, Nat.add_comm u]
    exact hlower
  · rw [hnext, Nat.mul_assoc, ← pow_add, Nat.add_comm u]
    exact hupper
  · rw [hp, hnext, hmid, Nat.add_assoc, Nat.add_right_inj, Nat.add_right_inj]
    exact hround
  · rw [hp, hnext, hmid]
    intro htie
    have := heven htie
    omega

section
variable {m k p r : Nat}

/-- Every other pattern is farther from the magnitude, or as far and then `r` is even (R126). -/
theorem NearestPattern.distance (h : NearestPattern m k p r) {other : Nat} (hne : other ≠ r) :
    |(unitsOf r * 2 ^ k : Int) - m| < |(unitsOf other * 2 ^ k : Int) - m| ∨
      (|(unitsOf r * 2 ^ k : Int) - m| = |(unitsOf other * 2 ^ k : Int) - m| ∧ r % 2 = 0) := by
  obtain ⟨hlower, hupper, hnear, heven⟩ := h
  have hmono : ∀ a b, a < b → unitsOf a * 2 ^ k < unitsOf b * 2 ^ k := fun a b hab =>
    Nat.mul_lt_mul_of_pos_right (unitsOf_strictMono hab) (Nat.two_pow_pos k)
  have hbelow := hmono other p
  have habove := hmono (p + 1) other
  have hother : other < p ∨ other = p ∨ other = p + 1 ∨ p + 1 < other := by omega
  have hcast : ∀ a, (unitsOf a * 2 ^ k : Int) = ((unitsOf a * 2 ^ k : Nat) : Int) := by
    intro a
    push_cast
    rfl
  rw [Nat.add_mul] at hnear heven
  simp only [hcast, Int.abs_eq_natAbs]
  obtain ⟨rfl, hhalf⟩ | ⟨rfl, hhalf⟩ := hnear
  · obtain hlt | rfl | rfl | hgt := hother
    · have := hbelow hlt
      omega
    · exact absurd rfl hne
    · omega
    · have := habove hgt
      omega
  · obtain hlt | rfl | rfl | hgt := hother
    · have := hbelow hlt
      omega
    · omega
    · exact absurd rfl hne
    · have := habove hgt
      omega

/-- The pattern is not finite exactly when the magnitude is at least halfway from the greatest
finite one to the next: that midpoint is a tie, and `finiteMagnitudes` is even (R126). -/
theorem NearestPattern.finiteMagnitudes_le_iff (h : NearestPattern m k p r) :
    finiteMagnitudes ≤ r ↔
      (unitsOf (finiteMagnitudes - 1) + unitsOf finiteMagnitudes) * 2 ^ k ≤ 2 * m := by
  obtain ⟨hlower, hupper, hnear, heven⟩ := h
  have hmono : ∀ a b, a ≤ b → unitsOf a * 2 ^ k ≤ unitsOf b * 2 ^ k := fun a b hab =>
    Nat.mul_le_mul_right _ (unitsOf_strictMono.monotone hab)
  obtain ⟨F, hF⟩ : ∃ F, F = finiteMagnitudes - 1 := ⟨_, rfl⟩
  have hsucc : finiteMagnitudes = F + 1 := hF ▸ rfl
  have hodd : F % 2 = 1 := hF ▸ rfl
  rw [← hF, hsucc, Nat.add_mul]
  rw [Nat.add_mul] at hnear heven
  obtain hlt | rfl | hgt := lt_trichotomy p F
  · have h1 := hmono (p + 1) F hlt
    have h2 := hmono F (F + 1) F.le_succ
    omega
  · omega
  · have h1 := hmono (F + 1) p hgt
    have h2 := hmono F (F + 1) F.le_succ
    omega

end

/-- `roundToF64` rounds once to nearest, ties to even, with gradual underflow and overflow (R126). -/
theorem roundToF64_isRounded (neg : Bool) (m k : Nat) :
    F64.IsRounded neg m k (roundToF64 neg m k) := by
  obtain ⟨p, hp⟩ := nearestPattern_roundedPattern m k
  by_cases hfin : roundedPattern m k < finiteMagnitudes
  · rw [roundToF64_eq_fin neg hfin]
    refine ⟨rfl, ?_, fun other hne => hp.distance (Fin.val_ne_of_ne hne)⟩
    exact Nat.lt_of_not_le (hp.finiteMagnitudes_le_iff.not.1 (Nat.not_le.2 hfin))
  · rw [roundToF64_eq_inf neg (Nat.not_lt.1 hfin)]
    exact ⟨rfl, hp.finiteMagnitudes_le_iff.1 (Nat.not_lt.1 hfin)⟩

/-- An exact zero sum is `+0` unless both operands are negative (R126, R127). -/
theorem F64.add_fin_of_zero {a b : Bool} {m n : Fin finiteMagnitudes}
    (h : signedUnits a m.val + signedUnits b n.val = 0) :
    F64.add (.fin a m) (.fin b n) = F64.zero (a && b) :=
  if_pos h

/-- Settles O59: both operations hand their exact result to `roundToF64`, but for an exact zero
sum. -/
theorem f64RoundsToNearestEven : Obligations.F64RoundsToNearestEven := by
  refine ⟨unitsOf_eq, fun a b m n => ?_, ?_⟩
  · rw [F64.mul_fin]
    -- A variable for the exponent, so that nothing evaluates the power.
    generalize 1074 = U
    exact roundToF64_isRounded _ _ U
  · rintro a b m n _ rfl
    refine ⟨fun hne => ?_, F64.add_fin_of_zero⟩
    rw [F64.add_fin hne]
    exact roundToF64_isRounded _ _ 0

/-! ## Zeros, infinities and not-a-numbers -/

/-- Settles O56: an infinity meets a zero or a finite number other than zero, opposite infinities
meet, a datum meets its negative, a not-a-number meets anything. -/
theorem f64SpecialValues : Obligations.F64SpecialValues := by
  refine ⟨fun a b m hm => ⟨if_neg hm, if_neg hm⟩, fun a b => ⟨rfl, rfl⟩, fun a => ?_,
    fun a m => ?_, fun x => ⟨F64.add_nan x, F64.nan_add x, ?_, rfl⟩⟩
  · exact if_neg (Bool.self_ne_not a)
  · have hsum : signedUnits a m.val + signedUnits (!a) m.val = 0 := by
      cases a <;> simp [signedUnits]
    rw [F64.add_fin_of_zero hsum, Bool.and_not_self]
  · cases x <;> rfl

/-- A sum of units that is not zero does not vanish in rounding (R126, R127). -/
theorem roundToF64_ne_zero {m : Nat} (hm : m ≠ 0) (neg neg' : Bool) :
    roundToF64 neg m 0 ≠ F64.zero neg' := by
  obtain ⟨p, hp⟩ := nearestPattern_roundedPattern m 0
  by_cases hfin : roundedPattern m 0 < finiteMagnitudes
  · rw [roundToF64_eq_fin neg hfin]
    intro heq
    obtain ⟨-, hmag⟩ := F64.fin.inj heq
    have hzero : roundedPattern m 0 = 0 := congrArg Fin.val hmag
    obtain rfl : p = 0 := by
      obtain ⟨h, -⟩ | ⟨h, -⟩ := hp.nearest <;> omega
    have hlt : m < unitsOf 1 * 2 ^ 0 := hp.upper
    have hone : unitsOf 1 = 1 := rfl
    omega
  · rw [roundToF64_eq_inf neg (Nat.not_lt.1 hfin)]
    exact nofun

/-- Only a sum with `-0` on the left is `-0` (R127). -/
theorem F64.eq_zero_true_of_add {x y : F64} (h : F64.add x y = F64.zero true) :
    x = F64.zero true := by
  cases x with
  | nan => cases h
  | inf a =>
    cases y with
    | nan => cases h
    | inf b =>
      rw [F64.add] at h
      split_ifs at h <;> cases h
    | fin b n => cases h
  | fin a m =>
    cases y with
    | nan => cases h
    | inf b => cases h
    | fin b n =>
      by_cases hsum : signedUnits a m.val + signedUnits b n.val = 0
      · rw [F64.add_fin_of_zero hsum] at h
        obtain ⟨hand, -⟩ := F64.fin.inj h
        obtain ⟨rfl, rfl⟩ := Bool.and_eq_true_iff.1 hand
        have hm : unitsOf m.val = 0 := by
          simp only [signedUnits, if_true] at hsum
          omega
        rw [F64.zero, F64.fin.injEq, Fin.ext_iff]
        exact ⟨rfl, unitsOf_eq_zero.1 hm⟩
      · rw [F64.add_fin hsum] at h
        exact absurd h (roundToF64_ne_zero (Int.natAbs_ne_zero.2 hsum) _ _)

/-- Each tap adds its product to the running total (R124). -/
theorem Filter.f64Total_succ {nmax : Nat} (f : Filter (Config.f64 nmax)) (k : Nat) :
    ∃ p, f.f64Total (k + 1) = F64.add (f.f64Total k) p :=
  ⟨f.product k, rfl⟩

/-- Settles O57, by induction on the taps: a total starts from `+0`, and only adding to `-0` gives
`-0`. -/
theorem f64TotalsAreNeverNegativeZero : Obligations.F64TotalsAreNeverNegativeZero := by
  intro nmax f k
  induction k with
  | zero =>
    change F64.zero false ≠ F64.zero true
    decide
  | succ k ih =>
    obtain ⟨p, hp⟩ := f.f64Total_succ k
    rw [hp]
    exact fun h => ih (F64.eq_zero_true_of_add h)

/-- Settles O58, by induction on the taps behind tap `k`. -/
theorem f64NotANumberPersists : Obligations.F64NotANumberPersists := by
  intro nmax f k n hkn hnan
  induction n, hkn using Nat.le_induction with
  | base => exact hnan
  | succ n _ ih =>
    obtain ⟨p, hp⟩ := f.f64Total_succ n
    rw [hp, ih, F64.nan_add]

/-! ## Encodings -/

/-- The bits an infinity was read from (R125). -/
theorem F64.bits_of_decode_eq_inf {b : BitVec 64} {neg : Bool} (h : F64.decode b = .inf neg) :
    b.toNat % 2 ^ 63 = finiteMagnitudes ∧ b.getLsbD 63 = neg := by
  simp only [F64.decode] at h
  split_ifs at h with _ hmag
  exact ⟨hmag, F64.inf.inj h⟩

/-- The bits a not-a-number was read from (R125). -/
theorem F64.bits_of_decode_eq_nan {b : BitVec 64} (h : F64.decode b = .nan) :
    finiteMagnitudes < b.toNat % 2 ^ 63 := by
  simp only [F64.decode] at h
  split_ifs at h with hlt hmag
  omega

/-- The encoding of an infinity gives its own bits back (R125). -/
theorem F64.encode_of_decode_eq_inf (draw : BitVec 53) {b : BitVec 64} {neg : Bool}
    (h : F64.decode b = .inf neg) : F64.encode draw (.inf neg) = b := by
  obtain ⟨hmag, rfl⟩ := F64.bits_of_decode_eq_inf h
  have hb := b.isLt
  have hsign : (b.getLsbD 63).toNat = b.toNat / 2 ^ 63 := by
    rw [BitVec.getLsbD, Nat.toNat_testBit, Nat.mod_eq_of_lt (by omega)]
  apply BitVec.eq_of_toNat_eq
  rw [F64.encode, hsign, BitVec.toNat_ofNat]
  omega

/-- The 53 bits that draw the not-a-number of encoding `b`: its sign and its fraction (R128). -/
def F64.drawOf (b : BitVec 64) : BitVec 53 :=
  BitVec.ofNat 53 (b.toNat / 2 ^ 63 * 2 ^ 52 + b.toNat % 2 ^ 52)

theorem F64.nanBits_drawOf {b : BitVec 64} (h : F64.decode b = .nan) :
    F64.nanBits (F64.drawOf b) = b := by
  have hnan : 2047 * 2 ^ 52 < b.toNat % 2 ^ 63 := F64.bits_of_decode_eq_nan h
  have hb := b.isLt
  have hmag : b.toNat % 2 ^ 63 = 2047 * 2 ^ 52 + b.toNat % 2 ^ 52 := by omega
  have hdraw : (F64.drawOf b).toNat = b.toNat / 2 ^ 63 * 2 ^ 52 + b.toNat % 2 ^ 52 := by
    rw [F64.drawOf, BitVec.toNat_ofNat, Nat.mod_eq_of_lt (by omega)]
  have hsign : (F64.drawOf b).toNat / 2 ^ 52 = b.toNat / 2 ^ 63 := by omega
  have hfrac : (F64.drawOf b).toNat % 2 ^ 52 = b.toNat % 2 ^ 52 := by omega
  apply BitVec.eq_of_toNat_eq
  simp only [F64.nanBits, hsign, hfrac, BitVec.toNat_ofNat]
  rw [if_neg (by omega), Nat.add_assoc, ← hmag, Nat.div_add_mod', Nat.mod_eq_of_lt hb]

/-- Settles O55: a finite datum, an infinity and a not-a-number each by the bits it was read
from. -/
theorem f64EncodingsAreFaithful : Obligations.F64EncodingsAreFaithful := by
  refine ⟨F64.decode_encode, fun b hb draw => ?_, fun b hb => ⟨_, F64.nanBits_drawOf hb⟩⟩
  cases hx : F64.decode b with
  | nan => exact absurd hx hb
  | inf neg => exact F64.encode_of_decode_eq_inf draw hx
  | fin neg mag =>
    rw [← hx]
    exact F64.encode_decode_fin draw (by rw [hx]; rfl)

end Sys2Proof.Machine
end

section
/-! Proofs about the chapter on reset and hazards (70_reset_and_hazards.md): the elements the spec
leaves unspecified (R166, R167), reset (R165), the waits of the engine (R174), the steps of a `PROC`
(R175) and the moves of the step relation (R178). -/

namespace Sys2Proof.Machine

variable {c : Config} {e e' f f' : Engine c}

/-! ## Two engines that agree, in two parts

`Engine.Same` is taken apart as the invariant is by `Engine.StorageInv` and `Engine.PhaseInv`: the
agreement on the storage, whatever the phase, and on what the sequencer uses in its phase. A move
keeps it if both parts hold of the two results (`Engine.SameStorage.same`). -/

/-- The two engines hold the same filter, or none (R57, R166). -/
structure Engine.SameStorage (e e' : Engine c) : Prop where
  valid : e.valid = e'.valid
  count : e.valid = true → e.N = e'.N
  cursor : e.valid = true → e.wc = e'.wc
  cells : e.valid = true → ∀ i, i < e.N.toNat →
    e.coef.read i = e'.coef.read i ∧ e.hist.read i = e'.hist.read i

/-- The two engines agree on what has a specified value in the phase of the first alone (R27 to
R31). -/
def Engine.SamePhase (e e' : Engine c) : Prop :=
  match e.phase with
  | .idle => True
  | .load => e.N = e'.N ∧ e.j = e'.j ∧
      ∀ i, i < e.j.toNat → e.coef.read i = e'.coef.read i ∧ e.hist.read i = e'.hist.read i
  | .discard => e.rem = e'.rem
  | .write => e.xin = e'.xin
  | .mac => e.j = e'.j ∧ e.acc = e'.acc
  | .adv => e.acc = e'.acc
  | .resp => e.rspStatus = e'.rspStatus ∧ e.rspData = e'.rspData

theorem Engine.Same.storage (h : e.Same e') : e.SameStorage e' where
  valid := h.valid
  count hv := h.count (.inl hv)
  cursor := h.cursor
  cells := h.cells

/-- The two parts are all that two engines in one phase must agree on, if a response is offered in
RESP alone (R31). -/
theorem Engine.SameStorage.same (hs : e.SameStorage e') (hphase : e.phase = e'.phase)
    (hp : e.SamePhase e') (hr : e.rspValid = e'.rspValid)
    (ho : e.rspValid = true → e.phase = .resp) : e.Same e' where
  valid := hs.valid
  phase := hphase
  rspValid := hr
  count := by
    rintro (hv | hl)
    · exact hs.count hv
    · rw [SamePhase, hl] at hp
      exact hp.1
  cursor := hs.cursor
  cells := hs.cells
  loading hl := by
    rw [SamePhase, hl] at hp
    exact hp.2
  discarding hd := by simpa only [SamePhase, hd] using hp
  writing hw := by simpa only [SamePhase, hw] using hp
  accumulating hm := by simpa only [SamePhase, hm] using hp
  accumulated ha := by simpa only [SamePhase, ha] using hp
  response ho' := by simpa only [SamePhase, ho ho'] using hp

/-- Without a filter the storage has no specified value (R166). -/
theorem Engine.SameStorage.of_invalid (hv : e.valid = false) (hv' : e'.valid = false) :
    e.SameStorage e' :=
  have hno : ¬ e.valid = true := ne_true_of_eq_false hv
  { valid := hv.trans hv'.symm, count := (absurd · hno), cursor := (absurd · hno)
    cells := (absurd · hno) }

/-- An engine that offers no response agrees with another in the same phase that offers none, if
they agree on the storage and on what that phase uses. -/
theorem Engine.SameStorage.same_of_silent (hs : e.SameStorage e') (hphase : e.phase = e'.phase)
    (hp : e.SamePhase e') (hr : e.rspValid = e'.rspValid) (hno : e.rspValid = false) :
    e.Same e' :=
  hs.same hphase hp hr fun ho => absurd ho (ne_true_of_eq_false hno)

/-- Two memories that agree on a cell still do when both have had the same write. -/
theorem Memory.read_write_congr {w i : Nat} {m m' : Memory w} (k : Nat) (v : BitVec w)
    (h : i ≠ k → m.read i = m'.read i) : (m.write k v).read i = (m'.write k v).read i := by
  rw [Memory.read_write, Memory.read_write]
  split
  · rfl
  · exact h ‹_›

/-! ## Each move keeps the agreement -/

/-- Ending a command with the same response. -/
theorem Engine.SameStorage.respond (h : e.SameStorage e') (s : Status) (d : BitVec c.aw) :
    (e.respond s d).Same (e'.respond s d) :=
  Engine.SameStorage.same { h with } rfl ⟨rfl, rfl⟩ rfl fun _ => rfl

theorem Engine.Same.raiseError (h : e.Same e') (s : Status) :
    (e.raiseError s).Same (e'.raiseError s) :=
  h.storage.respond s 0

theorem Engine.Same.endResponse (h : e.Same e') : e.endResponse.Same e'.endResponse :=
  Engine.SameStorage.same_of_silent { h.storage with } rfl trivial rfl rfl

theorem Engine.Same.createHeader (h : e.Same e') (hr : e.rspValid = false) (n : Nat) :
    (e.createHeader n).Same (e'.createHeader n) := by
  unfold Engine.createHeader
  split_ifs
  · exact h.raiseError _
  · exact Engine.SameStorage.same_of_silent { h.storage with } rfl rfl h.rspValid hr
  · exact Engine.SameStorage.same_of_silent (.of_invalid rfl rfl) rfl
      ⟨rfl, rfl, fun i hi => absurd hi (Nat.not_lt_zero i)⟩ h.rspValid hr

theorem Engine.Same.procHeader (h : e.Same e') (hr : e.rspValid = false) (x : Nat) :
    (e.procHeader x).Same (e'.procHeader x) := by
  cases hv : e.valid with
  | false =>
    rw [Engine.procHeader_of_invalid hv, Engine.procHeader_of_invalid (h.valid.symm.trans hv)]
    exact h.raiseError _
  | true =>
    rw [Engine.procHeader_of_valid hv, Engine.procHeader_of_valid (h.valid.symm.trans hv)]
    exact Engine.SameStorage.same_of_silent { h.storage with } rfl rfl h.rspValid hr

theorem Engine.Same.headerStep (h : e.Same e') (hr : e.rspValid = false) (i : Instr) :
    (e.headerStep i).Same (e'.headerStep i) := by
  cases i with
  | create n => exact h.createHeader hr n
  | proc x => exact h.procHeader hr x
  | rsvd0 d => exact h.raiseError _
  | rsvd3 d => exact h.raiseError _

theorem Engine.Same.discardStep (h : e.Same e') (hp : e.phase = .discard)
    (hr : e.rspValid = false) (w : BitVec c.cmdw) :
    (e.discardStep w).Same (e'.discardStep w) := by
  have hrem := h.discarding hp
  unfold Engine.discardStep
  rw [← hrem]
  split
  case isTrue =>
    refine Engine.SameStorage.same_of_silent { h.storage with } h.phase ?_ h.rspValid hr
    simp only [SamePhase, hp]
  case isFalse => exact h.raiseError _

/-- Completion makes the same filter of the same cells (R90, R93). -/
theorem Engine.createDone_same (hN : e.N = e'.N)
    (hcells : ∀ i, i < e.N.toNat →
      e.coef.read i = e'.coef.read i ∧ e.hist.read i = e'.hist.read i) :
    e.createDone.Same e'.createDone := by
  refine Engine.SameStorage.respond ?_ _ _
  refine { valid := rfl, count := fun _ => hN, cursor := fun _ => rfl, cells := ?_ }
  intro _ i (hlt : i < e.N.toNat)
  simp only [Memory.read_keepBelow, ← hN, if_pos hlt]
  exact hcells i hlt

/-- The load step needs of the two memories only the cells loaded so far, and writes the next one of
each (R92). -/
theorem Engine.Same.loadStep (h : e.Same e') (hi : e.Inv) (hp : e.phase = .load)
    {w : BitVec c.cmdw} (hok : e.loadStep w = .ok f) (hok' : e'.loadStep w = .ok f') :
    f.Same f' := by
  obtain ⟨-, rfl⟩ := Engine.loadStep_ok.1 hok
  obtain ⟨-, rfl⟩ := Engine.loadStep_ok.1 hok'
  obtain ⟨hj, hcells⟩ := h.loading hp
  obtain ⟨hv, hjN, -⟩ := hi.loading hp
  have hN := h.count (.inr hp)
  have hr := hi.rspValid_eq_false (by simp [hp])
  have hloaded : ∀ i, i < e.j.toNat + 1 →
      (e.coef.write e.j.toNat (coefOperand c w)).read i =
        (e'.coef.write e.j.toNat (coefOperand c w)).read i ∧
      (e.hist.write e.j.toNat c.num.zeroS).read i =
        (e'.hist.write e.j.toNat c.num.zeroS).read i := fun i hlt =>
    ⟨Memory.read_write_congr _ _ fun hne => (hcells i (by omega)).1,
      Memory.read_write_congr _ _ fun hne => (hcells i (by omega)).2⟩
  rw [← hj, ← hN]
  split
  case isTrue =>
    refine Engine.SameStorage.same_of_silent (.of_invalid hv (h.valid.symm.trans hv)) h.phase
      ?_ h.rspValid hr
    simp only [SamePhase, hp, toNat_succ_of_lt hjN]
    exact ⟨trivial, trivial, hloaded⟩
  case isFalse hlast =>
    exact Engine.createDone_same rfl fun i (hlt : i < e.N.toNat) => hloaded i (by omega)

theorem Engine.Same.writeStep (h : e.Same e') (hi : e.Inv) (hp : e.phase = .write)
    {draw : BitVec 53} (hok : e.writeStep draw = .ok f) (hok' : e'.writeStep draw = .ok f') :
    f.Same f' := by
  obtain ⟨-, rfl⟩ := Engine.writeStep_ok.1 hok
  obtain ⟨-, rfl⟩ := Engine.writeStep_ok.1 hok'
  have hv := hi.processing (by rw [hp]; rfl)
  have hr := hi.rspValid_eq_false (by simp [hp])
  rw [← h.cursor hv, ← h.writing hp]
  refine Engine.SameStorage.same_of_silent
    { h.storage with cursor := fun _ => rfl, cells := fun _ i hlt => ?_ } rfl ⟨rfl, rfl⟩
    h.rspValid hr
  obtain ⟨hcoef, hhist⟩ := h.cells hv i hlt
  exact ⟨hcoef, Memory.read_write_congr _ _ fun _ => hhist⟩

/-- The MAC step reads two cells of the filter, `j` and the cell of age `j` (R103). -/
theorem Engine.Same.macStep (h : e.Same e') (hi : e.Inv) (hp : e.phase = .mac)
    {draw : BitVec 53} (hok : e.macStep draw = .ok f) (hok' : e'.macStep draw = .ok f') :
    f.Same f' := by
  have hv := hi.processing (by rw [hp]; rfl)
  have hr := hi.rspValid_eq_false (by simp [hp])
  have hN := h.count (.inl hv)
  obtain ⟨hj, hacc⟩ := h.accumulating hp
  obtain ⟨hpos, -⟩ := hi.count (.inl hv)
  obtain ⟨hcoef, -⟩ := h.cells hv _ (hi.accumulating hp)
  obtain ⟨-, hhist⟩ := h.cells hv _ (readIndex_lt e.wc.toNat e.j.toNat hpos)
  obtain ⟨k, x, -, hk, -, hx, rfl⟩ := Engine.macStep_ok.1 hok
  obtain ⟨k', x', -, hk', -, hx', rfl⟩ := Engine.macStep_ok.1 hok'
  rw [← hj, ← hcoef, hk, Option.some.injEq] at hk'
  rw [← hj, ← hN, ← h.cursor hv, ← hhist, hx, Option.some.injEq] at hx'
  rw [← hj, ← hN, ← hacc, ← hk', ← hx']
  split
  case isTrue =>
    refine Engine.SameStorage.same_of_silent { h.storage with count := fun _ => rfl } h.phase
      ?_ h.rspValid hr
    simp only [SamePhase, hp, and_self]
  case isFalse =>
    exact Engine.SameStorage.same_of_silent { h.storage with count := fun _ => rfl } rfl rfl
      h.rspValid hr

theorem Engine.Same.advStep (h : e.Same e') (hi : e.Inv) (hp : e.phase = .adv) :
    e.advStep.Same e'.advStep := by
  have hv := hi.processing (by rw [hp]; rfl)
  unfold Engine.advStep
  rw [← h.accumulated hp, ← h.cursor hv, ← h.count (.inl hv)]
  refine Engine.SameStorage.respond ?_ _ _
  exact { h.storage with count := fun _ => rfl, cursor := fun _ => rfl }

/-- The moves of R178, one by one: none reads an unspecified element (R167). -/
theorem Engine.Same.apply (h : e.Same e') (hi : e.Inv) {draw : BitVec 53} {m : Move c}
    (hm : m.enabledIn e.phase = true) (hok : e.apply draw m = .ok f)
    (hok' : e'.apply draw m = .ok f') : f.Same f' := by
  cases m with
  | reset =>
    cases hok; cases hok'
    exact Engine.SameStorage.same_of_silent (.of_invalid rfl rfl) rfl trivial rfl rfl
  | header w =>
    cases hok; cases hok'
    have hp : e.phase = .idle := of_decide_eq_true hm
    exact h.headerStep (hi.rspValid_eq_false (by simp [hp])) _
  | load w => exact h.loadStep hi (of_decide_eq_true hm) hok hok'
  | discard w =>
    cases hok; cases hok'
    have hp : e.phase = .discard := of_decide_eq_true hm
    exact h.discardStep hp (hi.rspValid_eq_false (by simp [hp])) w
  | write => exact h.writeStep hi (of_decide_eq_true hm) hok hok'
  | mac => exact h.macStep hi (of_decide_eq_true hm) hok hok'
  | adv => cases hok; cases hok'; exact h.advStep hi (of_decide_eq_true hm)
  | take => cases hok; cases hok'; exact h.endResponse

theorem Engine.Same.edge (h : e.Same e') (hi : e.Inv) {draw : BitVec 53} {i : Inputs c}
    (hok : e.edge draw i = .ok f) (hok' : e'.edge draw i = .ok f') : f.Same f' := by
  unfold Engine.edge at hok hok'
  rw [← h.phase] at hok'
  cases hmove : i.move e.phase with
  | none =>
    rw [hmove] at hok hok'
    cases hok; cases hok'
    exact h
  | some m =>
    rw [hmove] at hok hok'
    exact h.apply hi (Inputs.move_eq_some hmove) hok hok'

/-- Settles O40: both edges answer an engine, by the invariant, and make the same move, because the
phase is specified; each move keeps the agreement. The ports carry specified elements alone. -/
theorem unspecifiedElementsAreNeverRead : Obligations.UnspecifiedElementsAreNeverRead := by
  intro c draw i e e' hi hi' h
  obtain ⟨f, hok⟩ := hi.edge_isOk draw i
  obtain ⟨f', hok'⟩ := hi'.edge_isOk draw i
  refine ⟨⟨f, f', hok, hok', h.edge hi hok hok'⟩, congrArg Phase.cmdReady h.phase, h.rspValid,
    fun hr => ?_⟩
  obtain ⟨hstatus, hdata⟩ := h.response hr
  exact congrArg₂ responseWord hstatus hdata

/-! ## The steps of a `PROC` -/

/-- Settles O22: the write step starts the MAC steps, `N` of them end in ADV, and the advance step
offers the response. -/
theorem procTakesExactlyNPlusTwoSteps : Obligations.ProcTakesExactlyNPlusTwoSteps := by
  intro c d e k h hp hk
  cases k with
  | zero => exact ⟨e, rfl, hp, fun h0 => absurd h0 (Nat.not_succ_le_zero 0)⟩
  | succ k =>
    obtain hkN | rfl : k ≤ e.N.toNat ∨ k = e.N.toNat + 1 := by omega
    · obtain ⟨-, hmax⟩ := h.count (.inl (h.processing (by rw [hp]; rfl)))
      refine ⟨_, h.ownSteps_write hp d hkN, ?_, fun _ _ =>
        toNat_ofNat_of_lt (c.lt_two_pow_nw (hkN.trans hmax))⟩
      change (if k < e.N.toNat then Phase.mac else .adv) = _
      rw [if_neg (Nat.succ_ne_zero k)]
      obtain hlt | rfl := hkN.lt_or_eq
      · rw [if_pos hlt, if_pos (Nat.succ_le_of_lt hlt)]
      · rw [if_neg (lt_irrefl _), if_neg (Nat.not_succ_le_self _), if_pos rfl]
    · refine ⟨_, h.ownSteps_proc hp d, ?_, fun _ hle => absurd hle (by omega)⟩
      rw [if_neg (by omega), if_neg (by omega), if_neg (by omega)]
      rfl

/-! ## Reset -/

/-- No word and no response is transferred at an edge with `rst = 1` (R165). -/
theorem Inputs.givesWord_of_rst {i : Inputs c} (h : i.rst = true) (p : Phase) :
    i.givesWord p = false := by
  simp [Inputs.givesWord, h]

theorem Engine.transferred_of_rst {i : Inputs c} (h : i.rst = true) (e : Engine c) :
    e.transferred i = none := by
  simp [Engine.transferred, h]

section
variable {e : Engine Config.default} {rest : List HostMove}
  {taken : List (BitVec Config.default.rspw)}

/-- A reset by the host is one step, in every phase (R165). -/
theorem step_reset :
    step ⟨e, .reset :: rest, taken⟩ = .next ⟨Engine.reset Config.default, rest, taken⟩ := by
  have hhost : State.hostPart ⟨e, .reset :: rest, taken⟩ = ⟨e, rest, taken⟩ := by
    simp [State.hostPart, State.restOfScript, HostMove.doneIn, State.takenAfter, State.offer,
      HostMove.inputs, Engine.transferred_of_rst]
  rw [stepIsAnEdgeOfTheEngine, hhost, Engine.edge_rst rfl, State.withEngine_ok]
  rfl

/-- Reset may be held for any number of edges (R165). -/
theorem State.run_reset (k : Nat) :
    State.run (k + 1) ⟨e, List.replicate (k + 1) HostMove.reset ++ rest, taken⟩ =
      .next ⟨Engine.reset Config.default, rest, taken⟩ := by
  induction k generalizing e with
  | zero => exact State.run_one step_reset
  | succ k ih => exact State.run_succ_eq_next.2 ⟨_, step_reset, ih⟩

end

/-- Settles O31: the edge is the reset edge whatever else the ports carry, and the machine's run
under a held reset ends in the reset state of its engine. -/
theorem resetOutranksEverything : Obligations.ResetOutranksEverything := by
  constructor
  · intro c draw e i h
    exact ⟨_, Engine.edge_rst h, rfl, rfl, rfl, Engine.transferred_of_rst h e,
      Inputs.givesWord_of_rst h e.phase⟩
  · rintro ⟨e, script, taken⟩ k rest rfl
    exact ⟨_, State.run_reset k, rfl, rfl, rfl, rfl, rfl⟩

/-- Settles O36: the reset state of an engine of any configuration has empty memories, no filter and
no response, which is all that the invariant asks in IDLE. -/
theorem resetMeetsTheInvariant : Obligations.ResetMeetsTheInvariant :=
  ⟨Engine.reset_inv Config.default, Engine.reset_inv⟩

/-! ## The waits of the engine and its moves -/

/-- In a phase that accepts a word, a host that offers none and does not reset leaves the engine
without a move (R174). -/
theorem Inputs.move_eq_none {i : Inputs c} {p : Phase} (hrst : i.rst = false)
    (hcmd : i.cmdValid = false) (hready : p.cmdReady = true) : i.move p = none := by
  obtain rfl | rfl | rfl := Phase.cmdReady_iff.1 hready <;>
    simp [Inputs.move, Inputs.givesWord, hrst, hcmd]

/-- Without a word the machine waits: a response that the host would take is not there (R43,
R174). -/
theorem step_wait {s : State} (hr : s.engine.rspValid = false)
    (hready : s.engine.phase.cmdReady = true)
    (hs : s.script = [] ∨ ∃ rest, s.script = .take :: rest) : step s = .next s := by
  have hresp : s.engine.phase ≠ .resp := fun hp => by simp [hp, Phase.cmdReady] at hready
  obtain ⟨hrst, hcmd⟩ : s.offer.rst = false ∧ s.offer.cmdValid = false := by
    unfold State.offer
    obtain hs | ⟨rest, hs⟩ := hs <;> rw [hs] <;> exact ⟨rfl, rfl⟩
  have hscript : s.restOfScript = s.script := by
    obtain hs | ⟨rest, hs⟩ := hs <;> simp [State.restOfScript, hs, HostMove.doneIn, hresp]
  have hhost : s.hostPart = s := by
    simp [State.hostPart, hscript, State.takenAfter, Engine.transferred, hr]
  rw [step, Inputs.move_eq_none hrst hcmd hready, hhost]

/-- Settles O33: a step in which the machine waits changes nothing, and so the next one is such a
step again. -/
theorem engineWaitsForWords : Obligations.EngineWaitsForWords := by
  intro s k hr hp hs
  induction k with
  | zero => rfl
  | succ k ih =>
    exact State.run_succ_eq_next.2 ⟨s, step_wait hr (Phase.cmdReady_iff.2 hp) hs, ih⟩

/-- Settles O34: the phase names the move, and the host's part decides only where the engine has no
step of its own. -/
theorem edgesMakeOnlyEnabledMoves : Obligations.EdgesMakeOnlyEnabledMoves := by
  intro c i i' p
  refine ⟨fun m => Inputs.move_eq_some, fun hr hr' hp => ?_, fun hw hm ha => ?_⟩
  · have hown : p.own = true := by obtain rfl | rfl | rfl := hp <;> rfl
    rw [Inputs.move_own hr hown, Inputs.move_own hr' hown]
    obtain rfl | rfl | rfl := hp <;> exact ⟨rfl, rfl⟩
  · cases p with
    | idle | load | discard => exact Inputs.move_eq_none rfl rfl rfl
    | write => exact absurd rfl hw
    | mac => exact absurd rfl hm
    | adv => exact absurd rfl ha
    | resp => rfl

end Sys2Proof.Machine
end
